-- ==== Sys2Proof/Word.lean ====
section
/-! DEFINITION. The word and byte types of the engine (spec 00_scope.md R4, R7, R8).

Every word is unsigned; `+` on `Word` is addition modulo 2^32 and carries no flag (R8), and `&&&`, `|||`, `^^^`,
`~~~`, `>>>`, `<<<` on `Word` are the operators of R9. -/

namespace Sys2Proof

/-- A 32-bit unsigned word (R4). Bit 0 is the least significant (R7). -/
abbrev Word := BitVec 32

/-- A byte, bits 7..0 (R7). -/
abbrev Byte := BitVec 8

/-- A message bit length: the unsigned 64-bit length counter (R4, R28). -/
abbrev BitLength := BitVec 64

end Sys2Proof
end

