-- ==== Sys2Proof/Syntax.lean ====
section
/-! DEFINITION. The commands of the engine: one constructor per row of spec/opcode_table.json (30_encoding.md R71). -/

namespace Sys2Proof

/-- A command the host writes to CMD. INIT and FINISH have no operand and ABSORB has one, the message byte
(30_encoding.md R73). -/
inductive Instr where
  /-- INIT: start a transaction (40_commands.md R101). -/
  | init
  /-- ABSORB b: append one message byte (40_commands.md R102). -/
  | absorb (b : Byte)
  /-- FINISH: pad, compress the last block or blocks, finalize (40_commands.md R103). -/
  | finish
deriving DecidableEq, Repr

end Sys2Proof
end

