-- ==== Sys2Proof/WellFormed.lean ====
section
/-! DEFINITION. Which command words are legal, by the mask and match table (30_encoding.md R72), and which commands
are well formed.

`legalWord` is written from the table of R72 alone; `decode` (Decode.lean) is written from the fields of R70, and
that the two agree is a statement. -/

namespace Sys2Proof

/-- One row of the table of R72: a word w is of the row when `w & mask = matchBits`. -/
structure CommandRow where
  mnemonic  : String
  matchBits : Word
  mask      : Word
deriving DecidableEq, Repr

/-- The three rows of R72 (and of spec/opcode_table.json). -/
def commandRows : List CommandRow :=
  [ ⟨"INIT",   0x10000000#32, 0xFFFFFFFF#32⟩,
    ⟨"ABSORB", 0x20000000#32, 0xFFFFFF00#32⟩,
    ⟨"FINISH", 0x30000000#32, 0xFFFFFFFF#32⟩ ]

/-- R72: a word is legal exactly when `w & mask = match` for one row. -/
def legalWord (w : Word) : Bool :=
  commandRows.any fun r => w &&& r.mask == r.matchBits

/-- A command is well formed when its operand fits the DATA field. All 256 values of ABSORB's byte are valid data
(R73) and the operand's type is the byte, so every command is: the check that refuses is `legalWord`, on words. -/
def Instr.wf : Instr → Bool
  | .init     => true
  | .absorb b => decide (b.toNat ≤ 255)
  | .finish   => true

end Sys2Proof
end

