-- ==== Sys2Proof/Decode.lean ====
section
/-! DEFINITION. The command decoder and the encoder (30_encoding.md R70 to R73, R75).

A command is one 32-bit word written to CMD as a whole (R70; 20_memory.md R60), so there is no byte order to fix
here: bit 0 of the word is bit 0 of spec/opcode_table.json's numbering. -/

namespace Sys2Proof

/-- Field OP, bits 31:28 (R70). -/
def opField (w : Word) : BitVec 4 := w.extractLsb' 28 4

/-- Field RSV, bits 27:8 (R70). -/
def rsvField (w : Word) : BitVec 20 := w.extractLsb' 8 20

/-- Field DATA, bits 7:0 (R70). -/
def dataField (w : Word) : BitVec 8 := w.extractLsb' 0 8

/-- Why a word is not a command (R72). The engine records ILLEGAL_CMD for each of them alike (R75). -/
inductive DecodeError where
  /-- OP is 0x0 or 0x4 to 0xF (R71). -/
  | illegalOp
  /-- OP is 1, 2 or 3 and a RSV bit is set (R72). -/
  | reservedBitSet
  /-- INIT or FINISH with DATA other than 0 (R72). -/
  | dataNotZero
deriving DecidableEq, Repr

/-- INIT and FINISH take no operand: DATA must be 0 (R70, R73). -/
def withoutOperand (i : Instr) (data : BitVec 8) : Except DecodeError Instr :=
  if data = 0 then .ok i else .error .dataNotZero

/-- The command a word stands for, or why it is illegal. How a word decodes does not depend on the machine's state
(R70). -/
def decode (w : Word) : Except DecodeError Instr :=
  match (opField w).toNat with
  | 1 => if rsvField w = 0 then withoutOperand .init (dataField w) else .error .reservedBitSet
  | 2 => if rsvField w = 0 then .ok (.absorb (dataField w)) else .error .reservedBitSet
  | 3 => if rsvField w = 0 then withoutOperand .finish (dataField w) else .error .reservedBitSet
  | _ => .error .illegalOp

/-- A word with the given OP and DATA fields and RSV = 0 (R70). -/
def commandWord (op : BitVec 4) (data : BitVec 8) : Word := (op.setWidth 32 <<< 28) ||| data.setWidth 32

/-- The word of a command (R71, R72). -/
def encode : Instr → Word
  | .init     => commandWord 0x1#4 0#8
  | .absorb b => commandWord 0x2#4 b
  | .finish   => commandWord 0x3#4 0#8

/-- The command word whose low `nbits` bits are `w` and whose other bits are 0. -/
def tableWord (nbits w : Nat) : Word := (BitVec.ofNat nbits w).setWidth 32

/-- The command the decoder reads from a row of spec/opcode_table.json whose bits are `w`. -/
def decodeTableWord (nbits w : Nat) : Option Instr :=
  match decode (tableWord nbits w) with
  | .ok i    => some i
  | .error _ => none

end Sys2Proof
end

