-- ==== Sys2Proof/Config.lean ====
section
/-! DEFINITION. The free values: what the spec calls "any value, a draw under no law".

Each constant has no body, so no proof can rest on what it is. It is applied to the draw counter of the state
(`State.draws`), which is advanced after every draw, so that two draws are two unrelated values.
The one parameter of the machine, BASE_ADDR (00_scope.md R6), is an argument of `Machine.windowOffset`,
`Machine.memRead` and `Machine.memWrite`. -/

namespace Sys2Proof.Config

/-- An unconstrained word: H, a..h, W after hardware reset (10_state.md R40) and DIGESTi read while BUSY = 1
(10_state.md R38). Assumption log 1 and 2. -/
opaque freeWord : Nat → Word

/-- An unconstrained byte: buf after hardware reset (10_state.md R40). Assumption log 1. -/
opaque freeByte : Nat → Byte

/-- An unconstrained 6-bit count: STATUS.BUFCOUNT read while BUSY = 1 (10_state.md R36, item U4 of
93_implementation_defined.md). Assumption log 2. -/
opaque freeCount : Nat → BitVec 6

end Sys2Proof.Config
end

