-- ==== Sys2Proof/Machine/State.lean ====
section
/-! DEFINITION. The state of the machine: the engine (10_state.md R20 to R33), its reset input (70_reset_and_hazards.md
R220), and the host agent that drives it (20_memory.md R61), as plain data.

The constant tables IV and K are not state: nothing writes them (10_state.md R23). They stand in Machine/Rom.lean. -/

namespace Sys2Proof.Machine

/-- The transaction state (10_state.md R29). -/
inductive Phase where
  /-- No transaction since reset. -/
  | idle
  /-- A transaction is open and accepts message bytes. -/
  | absorb
  /-- FINISH has completed and H is the digest. -/
  | done
  /-- An error was recorded. -/
  | error
deriving DecidableEq, Repr

/-- The error code (10_state.md R30, 60_exceptions.md R190). Codes 4 to 15 are never produced. -/
inductive ErrCode where
  /-- 0: no error since reset or the last INIT. -/
  | none
  /-- 1: a word that is not a legal command. -/
  | illegalCmd
  /-- 2: ABSORB or FINISH outside a transaction. -/
  | sequence
  /-- 3: the 2^61-th message byte. -/
  | lengthOverflow
deriving DecidableEq, Repr

/-- The sequencer (10_state.md R31): 67 states. -/
inductive Seq where
  /-- The engine is idle. -/
  | ready
  /-- The next engine step loads the block. -/
  | load
  /-- The next engine step is round t. -/
  | round (t : Fin 64)
  /-- The next engine step adds the working variables into H. -/
  | fold
deriving DecidableEq, Repr

/-- The working variables a..h, also written wv[0..7] (10_state.md R24). -/
structure WorkVars where
  a : Word
  b : Word
  c : Word
  d : Word
  e : Word
  f : Word
  g : Word
  h : Word
deriving DecidableEq, Repr

/-- A byte offset in the 64-byte register window (10_state.md R35, 20_memory.md R52). -/
abbrev Offset := BitVec 6

/-- The width of a host access. Only `w32` is supported (20_memory.md R53). -/
inductive Width where
  | w8
  | w16
  | w32
  | w64
deriving DecidableEq, Repr

/-- One action of the host: the table of 70_reset_and_hazards.md R231, with the WAIT loop of 30_encoding.md R77. -/
inductive HostAction where
  /-- `RD`: read a register of the window into a host variable (20_memory.md R52, 30_encoding.md R76). -/
  | read (w : Width) (off : Offset) (var : String)
  /-- `WR`: write a register of the window (20_memory.md R52, 30_encoding.md R76). -/
  | write (w : Width) (off : Offset) (v : Word)
  /-- `WAIT`: read STATUS into the variable s, and again as long as bit 0 is 1 (30_encoding.md R77). -/
  | wait
  /-- Assert the reset input (70_reset_and_hazards.md R220, R231). -/
  | assertReset
deriving DecidableEq, Repr

/-- The two agents (20_memory.md R61). -/
inductive Agent where
  | host
  | engine
deriving DecidableEq, Repr

/-- The machine. The fields down to `resetIn` are the engine; `host` and `vars` are the host agent; `turns` and
`draws` are the model's own, for what the spec leaves free. -/
structure State where
  /-- Hash State H[0..7] (10_state.md R20). -/
  H       : Vector Word 8
  /-- Working variables a..h (10_state.md R24). -/
  wv      : WorkVars
  /-- Message schedule W[0..63] (10_state.md R25). -/
  W       : Vector Word 64
  /-- Block buffer buf[0..63] (10_state.md R26). -/
  buf     : Vector Byte 64
  /-- BUFCOUNT n, 0..64 (10_state.md R27). Log 14 and 18. -/
  n       : Nat
  /-- Length counter L (10_state.md R28). -/
  L       : BitLength
  /-- Phase (10_state.md R29). -/
  phase   : Phase
  /-- Error code err (10_state.md R30). -/
  err     : ErrCode
  /-- Sequencer seq (10_state.md R31). -/
  seq     : Seq
  /-- Pending length block lenblk (10_state.md R32). -/
  lenblk  : Bool
  /-- Final-block flag final (10_state.md R33). -/
  final   : Bool
  /-- The reset input is asserted (70_reset_and_hazards.md R220). DESIGN CHOICE, log 6. -/
  resetIn : Bool
  /-- The host's pending actions, in program order (20_memory.md R61). DESIGN CHOICE, log 12. -/
  host    : List HostAction
  /-- The host's variables, each name at most once (30_encoding.md R76). DESIGN CHOICE, log 9. -/
  vars    : List (String × Word)
  /-- Who moves at the coming steps at which both agents can (20_memory.md R61). The model's own,
  DESIGN CHOICE, log 3. -/
  turns   : List Agent
  /-- How many free values have been drawn. The model's own, DESIGN CHOICE, log 2. -/
  draws   : Nat
deriving DecidableEq, Repr

/-- Why the machine stops. -/
inductive Fault where
  /-- `HostFault(CmdWhileBusy)`: the host wrote CMD while BUSY = 1 (70_reset_and_hazards.md R227). Raised by every
  write to CMD, and by every command's meaning, when seq is not READY. Safe: the hardware's behaviour is not
  defined, and no claim about such a run can be proved (log 4). -/
  | cmdWhileBusy
deriving DecidableEq, Repr

/-- Why the machine refuses a step. -/
inductive Refusal where
  /-- The command has no meaning yet. Raised by no arm of `exec` in this model. Safe. -/
  | notModelled (mnemonic : String)
  /-- `UnsupportedAccess`: an 8-, 16- or 64-bit access, or one at an offset that is not a multiple of 4
  (20_memory.md R53). Raised by the host's read and write actions. Safe: the spec refuses the run (log 5). -/
  | unsupportedAccess
deriving DecidableEq, Repr

/-- The engine after hardware reset (10_state.md R40), with a host that has nothing pending. H, a..h, W and buf are
unspecified: each element is a free value of its own, drawn from the counter `d` on (DESIGN CHOICE, log 1). The reset input is no
longer asserted. -/
def State.afterReset (d : Nat) : State where
  H       := Vector.ofFn fun i => Config.freeWord (d + i)
  wv      := ⟨Config.freeWord (d + 8), Config.freeWord (d + 9), Config.freeWord (d + 10), Config.freeWord (d + 11),
              Config.freeWord (d + 12), Config.freeWord (d + 13), Config.freeWord (d + 14), Config.freeWord (d + 15)⟩
  W       := Vector.ofFn fun t => Config.freeWord (d + 16 + t)
  buf     := Vector.ofFn fun j => Config.freeByte (d + 80 + j)
  n       := 0
  L       := 0
  phase   := .idle
  err     := .none
  seq     := .ready
  lenblk  := false
  final   := false
  resetIn := false
  host    := []
  vars    := []
  turns   := []
  draws   := d + 144

/-- The machine right after reset (70_reset_and_hazards.md R220, R221). -/
def State.reset : State := State.afterReset 0

end Sys2Proof.Machine
end

