-- ==== Sys2Proof/Machine/Flags.lean ====
section
/-! DEFINITION. BUSY and the STATUS word (10_state.md R31, R36). The engine has no flags register beyond STATUS (R34),
and no arithmetic sets one (00_scope.md R8, 43_compression.md R170). -/

namespace Sys2Proof.Machine

/-- The 2-bit code of a phase (10_state.md R29). -/
def Phase.code : Phase → BitVec 2
  | .idle   => 0
  | .absorb => 1
  | .done   => 2
  | .error  => 3

/-- The 4-bit error code (60_exceptions.md R190). -/
def ErrCode.code : ErrCode → BitVec 4
  | .none           => 0
  | .illegalCmd     => 1
  | .sequence       => 2
  | .lengthOverflow => 3

/-- BUSY: seq is not READY (10_state.md R31). -/
def State.busy (s : State) : Bool :=
  match s.seq with
  | .ready   => false
  | .load    => true
  | .round _ => true
  | .fold    => true

/-- STATUS.BUFCOUNT: n[5:0] when BUSY = 0 and any value when BUSY = 1 (10_state.md R36). -/
def State.bufCountField (s : State) : BitVec 6 :=
  if s.busy then Config.freeCount s.draws else BitVec.ofNat 6 s.n

/-- The STATUS word: BUFCOUNT << 8 | ERR << 4 | PHASE << 1 | BUSY; bits 3 and 31:14 read 0 (10_state.md R36). -/
def State.statusWord (s : State) : Word :=
  (s.bufCountField.setWidth 32 <<< 8) ||| (s.err.code.setWidth 32 <<< 4) ||| (s.phase.code.setWidth 32 <<< 1) |||
    (BitVec.ofBool s.busy).setWidth 32

end Sys2Proof.Machine
end

