-- ==== Sys2Proof/Machine/Operands.lean ====
section
/-! DEFINITION. The operand forms: byte order (00_scope.md R10, 20_memory.md R58, R59, 44_digest.md R180), the host's
access operands and the register window (10_state.md R35, 20_memory.md R52, R53, R55). -/

namespace Sys2Proof.Machine

/-- be32(b0, b1, b2, b3): the byte at the lower index goes into the more significant bits (00_scope.md R10,
20_memory.md R58). -/
def be32 (b0 b1 b2 b3 : Byte) : Word :=
  (b0.setWidth 32 <<< 24) ||| (b1.setWidth 32 <<< 16) ||| (b2.setWidth 32 <<< 8) ||| b3.setWidth 32

/-- Byte i of be64bytes(L), i = 0..7: L[63 - 8i : 56 - 8i] (00_scope.md R10, 20_memory.md R59). -/
def be64byte (L : BitLength) (i : Nat) : Byte := L.extractLsb' (56 - 8 * i) 8

/-- be64bytes(L): L[63:56] first and L[7:0] last (00_scope.md R10). -/
def be64bytes (L : BitLength) : List Byte :=
  [be64byte L 0, be64byte L 1, be64byte L 2, be64byte L 3, be64byte L 4, be64byte L 5, be64byte L 6, be64byte L 7]

/-- word_bytes(x): x[31:24], x[23:16], x[15:8], x[7:0] (00_scope.md R10). -/
def wordBytes (x : Word) : List Byte :=
  [x.extractLsb' 24 8, x.extractLsb' 16 8, x.extractLsb' 8 8, x.extractLsb' 0 8]

/-- Word j of the block in the buffer, j = 0..15 (20_memory.md R58). -/
def blockWord (buf : Vector Byte 64) (j : Fin 16) : Word :=
  be32 (buf[4 * j.val]'(by omega)) (buf[4 * j.val + 1]'(by omega)) (buf[4 * j.val + 2]'(by omega))
    (buf[4 * j.val + 3]'(by omega))

/-- The sixteen words of the block in the buffer (20_memory.md R58). -/
def blockWords (buf : Vector Byte 64) : Vector Word 16 := Vector.ofFn (blockWord buf)

/-- The digest bytes of eight words: the big-endian concatenation, H[0] first (44_digest.md R180). -/
def digestBytes (H : Vector Word 8) : List Byte := H.toList.flatMap wordBytes

/-- The registers of the window (10_state.md R35). -/
inductive WindowReg where
  | cmd
  | status
  | lenLo
  | lenHi
  | digest (i : Fin 8)
  | reserved
deriving DecidableEq, Repr

/-- The register of word index k = offset / 4 (10_state.md R35). -/
def windowRegAt (k : Nat) : WindowReg :=
  if k = 0 then .cmd
  else if k = 1 then .status
  else if k = 2 then .lenLo
  else if k = 3 then .lenHi
  else if h : 4 ≤ k ∧ k < 12 then .digest ⟨k - 4, by omega⟩
  else .reserved

/-- The register at an offset (10_state.md R35). -/
def windowReg (off : Offset) : WindowReg := windowRegAt (off.toNat / 4)

/-- An access is supported when it is 32 bits wide and 4-byte aligned (20_memory.md R53). -/
def supportedAccess (w : Width) (off : Offset) : Bool :=
  decide (w = .w32) && decide (off.toNat % 4 = 0)

/-- What the engine with its window at BASE_ADDR = `base` decodes of a host address: the offset in its 64-byte window,
and nothing outside it (20_memory.md R55). BASE_ADDR is a parameter the model takes as an argument (00_scope.md R6). -/
def windowOffset (base addr : Nat) : Option Offset :=
  if base ≤ addr ∧ addr < base + 64 then some (BitVec.ofNat 6 (addr - base)) else none

/-- `MemRead(addr, width)` as a host action; an address outside the window is none of the engine's
(20_memory.md R52, R55). -/
def memRead (base addr : Nat) (w : Width) (var : String) : Option HostAction :=
  (windowOffset base addr).map fun off => .read w off var

/-- `MemWrite(addr, width, v)` as a host action (20_memory.md R52, R55). -/
def memWrite (base addr : Nat) (w : Width) (v : Word) : Option HostAction :=
  (windowOffset base addr).map fun off => .write w off v

end Sys2Proof.Machine
end

