-- ==== Sys2Proof/Machine/Ops.lean ====
section
/-! DEFINITION. The named operations: recording an error and leaving the error phase, hardware reset, the guards of the
command dispatch, reading the register window, and the host's variables. -/

namespace Sys2Proof.Machine

/-- `raise Error(code)` (60_exceptions.md R195): the one way the engine takes an error. The first error is kept, and
nothing else changes. -/
def raiseError (code : ErrCode) (s : State) : State :=
  if s.phase ≠ .error then { s with err := code, phase := .error } else s

/-- INIT's writes (40_commands.md R101). It is also the one command that leaves the error phase
(60_exceptions.md R198). -/
def startTransaction (s : State) : State :=
  { s with
    H      := Rom.IV
    L      := 0
    n      := 0
    lenblk := false
    final  := false
    err    := .none
    phase  := .absorb }

/-- Hardware reset (70_reset_and_hazards.md R220): every element of the engine takes its value of 10_state.md R40, the
unspecified ones drawn anew. What the host has pending, its variables and the schedule are not the engine's (DESIGN CHOICE,
log 6). -/
def hardwareReset (s : State) : State :=
  { State.afterReset s.draws with
    host  := s.host
    vars  := s.vars
    turns := s.turns }

/-- The first test of the dispatch (40_commands.md R100): a CMD write while BUSY = 1 is a host fault
(70_reset_and_hazards.md R227). -/
def whenReady (s : State) (act : State → Host.Outcome State Fault Refusal) : Host.Outcome State Fault Refusal :=
  if s.busy then .fault .cmdWhileBusy else act s

/-- The fourth test of the dispatch (40_commands.md R100): ABSORB and FINISH outside phase ABSORB raise SEQUENCE
(60_exceptions.md R196). -/
def whenAbsorbing (s : State) (act : State → Host.Outcome State Fault Refusal) : Host.Outcome State Fault Refusal :=
  whenReady s fun s => if s.phase ≠ .absorb then .next (raiseError .sequence s) else act s

/-- What a register of the window reads as (10_state.md R35 to R39). -/
def readReg (r : WindowReg) (s : State) : Word :=
  match r with
  | .cmd      => 0
  | .status   => s.statusWord
  | .lenLo    => s.L.extractLsb' 0 32
  | .lenHi    => s.L.extractLsb' 32 32
  | .digest i => if s.busy then Config.freeWord s.draws else s.H[i]
  | .reserved => 0

/-- A read has no side effect on the engine (20_memory.md R56); while BUSY = 1 it uses up a free value. -/
def afterRead (s : State) : State :=
  { s with draws := if s.busy then s.draws + 1 else s.draws }

/-- Give a host variable a value (30_encoding.md R76). -/
def setVar (var : String) (v : Word) (s : State) : State :=
  { s with vars := (var, v) :: s.vars.filter fun p => p.1 ≠ var }

/-- The value of a host variable, if it has one. -/
def getVar (var : String) (s : State) : Option Word :=
  (s.vars.find? fun p => p.1 = var).map Prod.snd

/-- `RD <reg> -> <var>`: BusRead into a host variable (20_memory.md R52, 30_encoding.md R76). -/
def readInto (off : Offset) (var : String) (s : State) : State :=
  setVar var (readReg (windowReg off) s) (afterRead s)

end Sys2Proof.Machine
end

