-- ==== Sys2Proof/Machine/Padding.lean ====
section
/-! DEFINITION. The padding controller's two writes (41_padding.md R122, R124). It never reads a message byte (R121). -/

namespace Sys2Proof.Machine

/-- The marker byte 0x80 (41_padding.md R120). -/
def padMarker : Byte := 0x80

/-- The last position of the marker that leaves room for the length field (41_padding.md R122). -/
def lastRoomForLength : Nat := 55

/-- The buffer PAD_FINAL leaves (41_padding.md R122), m the number of message bytes in it: the message bytes, the marker
at m, and zeros, with the length field over the zeros at 56..63 when m ≤ 55. -/
def paddedBuf (L : BitLength) (m : Nat) (buf : Vector Byte 64) : Vector Byte 64 :=
  Vector.ofFn fun j =>
    if j.val < m then buf[j]
    else if j.val = m then padMarker
    else if m ≤ lastRoomForLength ∧ 56 ≤ j.val then be64byte L (j.val - 56)
    else 0

/-- PAD_FINAL (41_padding.md R122). -/
def padFinal (s : State) : State :=
  { s with
    buf    := paddedBuf s.L s.n s.buf
    lenblk := decide (lastRoomForLength < s.n) }

/-- The length block: 56 zeros and the length field (41_padding.md R124). -/
def lengthBlockBuf (L : BitLength) : Vector Byte 64 :=
  Vector.ofFn fun j => if 56 ≤ j.val then be64byte L (j.val - 56) else 0

/-- LENGTH_BLOCK (41_padding.md R124). -/
def lengthBlock (s : State) : State :=
  { s with
    buf    := lengthBlockBuf s.L
    lenblk := false
    seq    := .load }

end Sys2Proof.Machine
end

