-- ==== Sys2Proof/Machine/Schedule.lean ====
section
/-! DEFINITION. The bit functions of the message-schedule expander, the expander and LOAD (42_schedule.md R142 to R148). -/

namespace Sys2Proof.Machine

/-- ROTRn(x), for 1 ≤ n ≤ 31 (42_schedule.md R144). No other n is ever used. -/
def rotr (n : Nat) (x : Word) : Word := (x >>> n) ||| (x <<< (32 - n))

/-- SHRn(x) (42_schedule.md R145). -/
def shr (n : Nat) (x : Word) : Word := x >>> n

/-- σ0 (42_schedule.md R146). -/
def smallSigma0 (x : Word) : Word := rotr 7 x ^^^ rotr 18 x ^^^ shr 3 x

/-- σ1 (42_schedule.md R147). -/
def smallSigma1 (x : Word) : Word := rotr 17 x ^^^ rotr 19 x ^^^ shr 10 x

/-- Schedule word t from the words before it, 16 ≤ t ≤ 63 (42_schedule.md R148). -/
def expandedWord (W : Vector Word 64) (t : Fin 64) : Word :=
  smallSigma1 W[t.val - 2] + W[t.val - 7] + smallSigma0 W[t.val - 15] + W[t.val - 16]

/-- The expansion at the start of ROUND(t): W[t] is written for t ≥ 16 only (42_schedule.md R148). -/
def expand (t : Fin 64) (W : Vector Word 64) : Vector Word 64 :=
  if 16 ≤ t.val then W.set t (expandedWord W t) else W

/-- The message schedule LOAD leaves: the block's words verbatim in W[0..15], the rest unchanged (42_schedule.md R142). -/
def loadedW (buf : Vector Byte 64) (W : Vector Word 64) : Vector Word 64 :=
  Vector.ofFn fun t => if h : t.val < 16 then blockWord buf ⟨t.val, h⟩ else W[t]

/-- The working variables LOAD leaves: a = H[0], ..., h = H[7] (42_schedule.md R142). -/
def loadedVars (H : Vector Word 8) : WorkVars := ⟨H[0], H[1], H[2], H[3], H[4], H[5], H[6], H[7]⟩

/-- The LOAD step (42_schedule.md R142). -/
def loadStep (s : State) : State :=
  { s with
    W   := loadedW s.buf s.W
    wv  := loadedVars s.H
    n   := 0
    seq := .round 0 }

end Sys2Proof.Machine
end

