-- ==== Sys2Proof/Machine/Compression.lean ====
section
/-! DEFINITION. The compression engine: the bit functions of the round, ROUND(t) and FOLD (43_compression.md R160 to
R170), and the engine's step (42_schedule.md R140). -/

namespace Sys2Proof.Machine

/-- Σ0 (43_compression.md R160). -/
def bigSigma0 (x : Word) : Word := rotr 2 x ^^^ rotr 13 x ^^^ rotr 22 x

/-- Σ1 (43_compression.md R161). -/
def bigSigma1 (x : Word) : Word := rotr 6 x ^^^ rotr 11 x ^^^ rotr 25 x

/-- Ch, choose (43_compression.md R162). -/
def ch (x y z : Word) : Word := (x &&& y) ^^^ (~~~x &&& z)

/-- Maj, majority (43_compression.md R163). -/
def maj (x y z : Word) : Word := (x &&& y) ^^^ (x &&& z) ^^^ (y &&& z)

/-- T1 of a round with constant k and schedule word w (43_compression.md R166). -/
def roundT1 (k w : Word) (v : WorkVars) : Word := v.h + bigSigma1 v.e + ch v.e v.f v.g + k + w

/-- T2 of a round (43_compression.md R166). -/
def roundT2 (v : WorkVars) : Word := bigSigma0 v.a + maj v.a v.b v.c

/-- The eight simultaneous assignments of a round (43_compression.md R166). -/
def roundVars (k w : Word) (v : WorkVars) : WorkVars where
  a := roundT1 k w v + roundT2 v
  b := v.a
  c := v.b
  d := v.c
  e := v.d + roundT1 k w v
  f := v.e
  g := v.f
  h := v.g

/-- The sequencer after ROUND(t) (43_compression.md R166). -/
def afterRound (t : Fin 64) : Seq :=
  if h : t.val < 63 then .round ⟨t.val + 1, by omega⟩ else .fold

/-- The ROUND(t) step: the expansion comes first, and T1 reads the W[t] just written (43_compression.md R166). -/
def roundStep (t : Fin 64) (s : State) : State :=
  { s with
    W   := expand t s.W
    wv  := roundVars Rom.K[t] (expand t s.W)[t] s.wv
    seq := afterRound t }

/-- The Hash State after FOLD: each word on its own, modulo 2^32 (43_compression.md R168). -/
def foldedH (H : Vector Word 8) (v : WorkVars) : Vector Word 8 :=
  #v[H[0] + v.a, H[1] + v.b, H[2] + v.c, H[3] + v.d, H[4] + v.e, H[5] + v.f, H[6] + v.g, H[7] + v.h]

/-- FOLD, part 2: continue with the length block, end the transaction, or go back to absorbing
(43_compression.md R169). -/
def continueOrStop (s : State) : State :=
  if s.lenblk then lengthBlock s
  else if s.final then { s with final := false, phase := .done, seq := .ready }
  else { s with seq := .ready }

/-- The FOLD step (43_compression.md R168, R169). -/
def foldStep (s : State) : State :=
  continueOrStop { s with H := foldedH s.H s.wv }

/-- The engine agent's step; it has none when seq is READY (42_schedule.md R140). -/
def engineStep (s : State) : State :=
  match s.seq with
  | .ready   => s
  | .load    => loadStep s
  | .round t => roundStep t s
  | .fold    => foldStep s

end Sys2Proof.Machine
end

