-- ==== Sys2Proof/Machine/Commands.lean ====
section
/-! DEFINITION. The meanings of INIT, ABSORB and FINISH (40_commands.md R101 to R103), with the tests of the dispatch that
apply to a legal word (R100): each is one host step. -/

namespace Sys2Proof.Machine

/-- The largest value of L: 8 × (2^61 − 1) = 2^64 − 8 (00_scope.md R5, 40_commands.md R102). -/
def maxLength : BitLength := 0xFFFFFFFFFFFFFFF8#64

/-- INIT (40_commands.md R101): accepted in every phase. -/
def execInit (s : State) : Host.Outcome State Fault Refusal :=
  whenReady s fun s => .next (startTransaction s)

/-- ABSORB's writes (40_commands.md R102): the byte that fills buf[63] starts the compression. -/
def absorbByte (b : Byte) (s : State) : State :=
  { s with
    buf := s.buf.setIfInBounds s.n b
    n   := s.n + 1
    L   := s.L + 8
    seq := if s.n + 1 = 64 then .load else s.seq }

/-- ABSORB b (40_commands.md R102); the 2^61-th byte raises LENGTH_OVERFLOW (60_exceptions.md R193). -/
def execAbsorb (b : Byte) (s : State) : Host.Outcome State Fault Refusal :=
  whenAbsorbing s fun s =>
    if s.L = maxLength then .next (raiseError .lengthOverflow s) else .next (absorbByte b s)

/-- FINISH's writes (40_commands.md R103): pad, mark the transaction as ending, start the compression. -/
def finishMessage (s : State) : State :=
  { padFinal s with final := true, seq := .load }

/-- FINISH (40_commands.md R103). -/
def execFinish (s : State) : Host.Outcome State Fault Refusal :=
  whenAbsorbing s fun s => .next (finishMessage s)

end Sys2Proof.Machine
end

