-- ==== Sys2Proof/Machine/HostAgent.lean ====
section
/-! DEFINITION. The host agent's accesses (20_memory.md R52 to R56, 70_reset_and_hazards.md R231), the dispatch of a
command word (40_commands.md R100), and which agent moves (20_memory.md R61). -/

namespace Sys2Proof.Machine

/-- A write of any word to CMD (40_commands.md R100): the busy test, the legality test, then the command, whose meaning
makes the remaining tests. -/
def commandWrite (v : Word) (s : State) : Host.Outcome State Fault Refusal :=
  whenReady s fun s =>
    match decode v with
    | .error _ => .next (raiseError .illegalCmd s)
    | .ok i    => exec i s

/-- BusWrite: a write to CMD is a command; a write to a read-only or reserved register has no effect
(10_state.md R35, R39). -/
def busWrite (off : Offset) (v : Word) (s : State) : Host.Outcome State Fault Refusal :=
  match windowReg off with
  | .cmd      => commandWrite v s
  | .status   => .next s
  | .lenLo    => .next s
  | .lenHi    => .next s
  | .digest _ => .next s
  | .reserved => .next s

/-- An access of another width, or a misaligned one, is refused (20_memory.md R53). -/
def whenSupported (w : Width) (off : Offset) (r : Host.Outcome State Fault Refusal) :
    Host.Outcome State Fault Refusal :=
  if supportedAccess w off then r else .refused .unsupportedAccess

/-- The offset of STATUS (10_state.md R35). -/
def statusOffset : Offset := 0x04

/-- One pass of WAIT's loop (30_encoding.md R77): read STATUS into s, and stay at the loop while bit 0 is 1. -/
def pollStatus (s : State) : State :=
  let t := readInto statusOffset "s" s
  if (readReg .status s).getLsbD 0 then { t with host := .wait :: t.host } else t

/-- One host step on the action the host issues, `s` being the state with that action taken off the pending ones. -/
def hostAction (a : HostAction) (s : State) : Host.Outcome State Fault Refusal :=
  match a with
  | .read w off var => whenSupported w off (.next (readInto off var s))
  | .write w off v  => whenSupported w off (busWrite off v s)
  | .wait           => .next (pollStatus s)
  | .assertReset    => .next { s with resetIn := true }

/-- The host's step: its oldest pending action (20_memory.md R61, program order). -/
def hostStep (s : State) : Host.Outcome State Fault Refusal :=
  match s.host with
  | []      => .next s
  | a :: as => hostAction a { s with host := as }

/-- Which agent moves (20_memory.md R61). The engine has a step exactly when BUSY = 1 (42_schedule.md R140), the host
when it has something pending. Where both do, the schedule says, and past its end the engine moves: a host that polls
cannot keep the engine from its step for ever (weak fairness, 42_schedule.md R140; DESIGN CHOICE, log 3). -/
def mover (s : State) : Option Agent :=
  match s.busy, s.host with
  | false, []     => none
  | false, _ :: _ => some .host
  | true, []      => some .engine
  | true, _ :: _  => some (s.turns.headD .engine)

/-- The entry of the schedule that decided the move, where one did, is used up. -/
def takeTurn (s : State) : State :=
  if s.busy ∧ s.host ≠ [] then { s with turns := s.turns.tail } else s

end Sys2Proof.Machine
end

