-- ==== Sys2Proof/Machine/Step.lean ====
section
/-! DEFINITION. One step of the machine (20_memory.md R61), and the placing of a command word. -/

namespace Sys2Proof.Machine

/-- One step. Reset takes precedence over every command and engine step (70_reset_and_hazards.md R220); then the agent
whose turn it is moves; with BUSY = 0 and nothing pending the machine waits and keeps its state
(70_reset_and_hazards.md R221, 60_exceptions.md R203). -/
def step (s : State) : Host.Outcome State Fault Refusal :=
  if s.resetIn then .next (hardwareReset s)
  else
    match mover s with
    | none         => .next s
    | some .host   => hostStep (takeTurn s)
    | some .engine => .next (engineStep (takeTurn s))

/-- `s` with the write of a command word to CMD as the host's next action, at the host's turn. The engine fetches
nothing (20_memory.md R64): a command comes to it as the host's write of one word to CMD (30_encoding.md R70), so this is
where the next command stands. Where the engine is busy the schedule is given a host turn. DESIGN CHOICE, log 12. -/
def State.withFetchWord (s : State) (nbits w : Nat) : State :=
  { s with
    resetIn := false
    host    := .write .w32 0 (tableWord nbits w) :: s.host
    turns   := if s.busy then .host :: s.turns else s.turns }

end Sys2Proof.Machine
end

