-- ==== Sys2Proof/Machine/Assembler.lean ====
section
/-! DEFINITION. The host's assembler notation (30_encoding.md R76, R77): the operations, what each expands to, and the
reading of a line of text (where R76 leaves it open: DESIGN CHOICE, log 13). -/

namespace Sys2Proof.Machine

/-- One line of a host program (R76, R77). -/
inductive AsmOp where
  | init
  | absorb (b : Byte)
  | finish
  | wr (off : Offset) (v : Word)
  | rd (off : Offset) (var : String)
  | wait
  | absorbs (bs : List Byte)
  | readDigest (var : String)
  | hash (bs : List Byte) (var : String)
deriving DecidableEq, Repr

/-- The offset of CMD (10_state.md R35). -/
def cmdOffset : Offset := 0x00

/-- The offset of DIGESTi (10_state.md R35). -/
def digestOffset (i : Fin 8) : Offset := 0x10 + 4 * BitVec.ofNat 6 i

/-- A command as the host's access: `BusWrite(0x00, word)` (R76). -/
def command (i : Instr) : HostAction := .write .w32 cmdOffset (encode i)

/-- The variable that READDIGEST -> d reads word i into: d0 ... d7 (R77). -/
def digestVar (var : String) (i : Fin 8) : String := var ++ String.singleton (Char.ofNat (48 + i))

/-- `ABSORBS`: each byte's ABSORB, then WAIT (R77). -/
def absorbsExpansion (bs : List Byte) : List HostAction :=
  bs.flatMap fun b => [command (.absorb b), .wait]

/-- `READDIGEST -> d`: the eight reads, DIGEST0 first (R77). -/
def readDigestExpansion (var : String) : List HostAction :=
  (List.finRange 8).map fun i => .read .w32 (digestOffset i) (digestVar var i)

/-- What a line expands to (R76, R77). -/
def AsmOp.expand : AsmOp → List HostAction
  | .init           => [command .init]
  | .absorb b       => [command (.absorb b)]
  | .finish         => [command .finish]
  | .wr off v       => [.write .w32 off v]
  | .rd off var     => [.read .w32 off var]
  | .wait           => [.wait]
  | .absorbs bs     => absorbsExpansion bs
  | .readDigest var => readDigestExpansion var
  | .hash bs var    =>
    [.wait, command .init] ++ absorbsExpansion bs ++ [command .finish, .wait] ++ readDigestExpansion var

/-- d of READDIGEST -> d: word_bytes(d0) ++ ... ++ word_bytes(d7) (R77); none before all eight are read. R77 leaves open
whether d is a host variable of its own: here it is no variable, and is computed from d0 ... d7 whenever it is asked for,
so that a later read into one of them changes it (DESIGN CHOICE, log 20). -/
def digestValue (var : String) (s : State) : Option (List Byte) :=
  ((List.finRange 8).mapM fun i => getVar (digestVar var i) s).map fun ws => ws.flatMap wordBytes

/-- A token of a line. -/
inductive Token where
  | word (cs : List Char)
  | charLit (c : Char)
  | text (cs : List Char)
  | comma
  | arrow
  | openList
  | closeList
deriving DecidableEq, Repr

/-- A double quote and an apostrophe, by their ASCII codes. -/
def doubleQuote : Char := Char.ofNat 34

def apostrophe : Char := Char.ofNat 39

/-- Where the reading of a line stands; letters read so far stand the last first. -/
inductive LexMode where
  /-- Outside a literal, `cur` the letters of an open word. -/
  | plain (cur : List Char)
  /-- As `plain`, after a hyphen that may begin an arrow. -/
  | hyphen (cur : List Char)
  /-- In a text literal. -/
  | inText (str : List Char)
  /-- After the apostrophe that opens a character literal. -/
  | charOpen
  /-- After the character of a character literal. -/
  | charRead (c : Char)
  /-- In a comment. -/
  | comment
  /-- The line is not of the notation. -/
  | bad
deriving DecidableEq, Repr

/-- The tokens so far, the last first, with an open word ended. -/
def endWord (cur : List Char) (ts : List Token) : List Token :=
  if cur.isEmpty then ts else .word cur.reverse :: ts

/-- One character outside a literal: a semicolon starts a comment, and spaces, commas, brackets and quotes end a word
(R76). -/
def lexPlain (cur : List Char) (ts : List Token) (c : Char) : LexMode × List Token :=
  if c = ';' then (.comment, endWord cur ts)
  else if c = ' ' then (.plain [], endWord cur ts)
  else if c = ',' then (.plain [], .comma :: endWord cur ts)
  else if c = '[' then (.plain [], .openList :: endWord cur ts)
  else if c = ']' then (.plain [], .closeList :: endWord cur ts)
  else if c = doubleQuote then (.inText [], endWord cur ts)
  else if c = apostrophe then (.charOpen, endWord cur ts)
  else if c = '-' then (.hyphen cur, ts)
  else (.plain (c :: cur), ts)

/-- One character of a line. -/
def lexStep (st : LexMode × List Token) (c : Char) : LexMode × List Token :=
  match st.1 with
  | .plain cur  => lexPlain cur st.2 c
  | .hyphen cur => if c = '>' then (.plain [], .arrow :: endWord cur st.2) else lexPlain ('-' :: cur) st.2 c
  | .inText str => if c = doubleQuote then (.plain [], .text str.reverse :: st.2) else (.inText (c :: str), st.2)
  | .charOpen   => (.charRead c, st.2)
  | .charRead d => if c = apostrophe then (.plain [], .charLit d :: st.2) else (.bad, st.2)
  | .comment    => (.comment, st.2)
  | .bad        => (.bad, st.2)

/-- The tokens of a line; none where a literal is left open or malformed. -/
def tokens (line : List Char) : Option (List Token) :=
  match line.foldl lexStep (.plain [], []) with
  | (.plain cur, ts)  => some (endWord cur ts).reverse
  | (.hyphen cur, ts) => some (endWord ('-' :: cur) ts).reverse
  | (.comment, ts)    => some ts.reverse
  | (.inText _, _)    => none
  | (.charOpen, _)    => none
  | (.charRead _, _)  => none
  | (.bad, _)         => none

/-- The value of a digit of a number in the given base, at most 16. -/
def digitValue (base : Nat) (c : Char) : Option Nat :=
  let v := if '0' ≤ c ∧ c ≤ '9' then c.toNat - 48
    else if 'a' ≤ c ∧ c ≤ 'f' then c.toNat - 87
    else if 'A' ≤ c ∧ c ≤ 'F' then c.toNat - 55
    else base
  if v < base then some v else none

/-- The digits of a number in the given base: at least one and as many as stand there, leading zeros included, so that 0x5,
0x0061 and 0097 are bytes. R76 writes 0xNN, and says no more of a number's digits (DESIGN CHOICE, log 13). -/
def digitsValue (base : Nat) : List Char → Option Nat
  | [] => none
  | c :: cs => cs.foldlM (fun acc d => (digitValue base d).map (base * acc + ·)) =<< digitValue base c

/-- `0xNN` or a decimal number (R76). -/
def numberValue : List Char → Option Nat
  | '0' :: 'x' :: cs => digitsValue 16 cs
  | cs               => digitsValue 10 cs

/-- A character literal is read as its ASCII code (R76, item G3 of 93_implementation_defined.md). -/
def asciiByte (c : Char) : Option Byte := if c.toNat < 128 then some (BitVec.ofNat 8 c.toNat) else none

/-- `<byte>`: 0xNN, a decimal 0..255, or a character literal (R76). -/
def byteOperand : Token → Option Byte
  | .charLit c => asciiByte c
  | .word cs   => (numberValue cs).bind fun v => if v < 256 then some (BitVec.ofNat 8 v) else none
  | _          => none

/-- `<word>`: a number of 32 bits, hexadecimal or decimal. R76 gives it no written form (DESIGN CHOICE, log 13). -/
def wordOperand (cs : List Char) : Option Word :=
  (numberValue cs).bind fun v => if v < 2 ^ 32 then some (BitVec.ofNat 32 v) else none

/-- The register names of 10_state.md R35. -/
def registerNames : List (List Char × Offset) :=
  [ ("CMD".toList, 0x00), ("STATUS".toList, 0x04), ("LEN_LO".toList, 0x08), ("LEN_HI".toList, 0x0C),
    ("DIGEST0".toList, 0x10), ("DIGEST1".toList, 0x14), ("DIGEST2".toList, 0x18), ("DIGEST3".toList, 0x1C),
    ("DIGEST4".toList, 0x20), ("DIGEST5".toList, 0x24), ("DIGEST6".toList, 0x28), ("DIGEST7".toList, 0x2C) ]

/-- `<reg>`: a register name of 10_state.md R35 or an offset in the window (R76). -/
def regOperand (cs : List Char) : Option Offset :=
  match registerNames.find? fun p => p.1 = cs with
  | some p => some p.2
  | none   => (numberValue cs).bind fun v => if v < 64 then some (BitVec.ofNat 6 v) else none

/-- The bytes of a list operand, after its opening bracket (R77). R77 is silent on an empty list and on a comma before the
closing bracket: both are accepted, the comma adding no byte (DESIGN CHOICE, log 13). -/
def byteList : List Token → Option (List Byte)
  | [.closeList]        => some []
  | [t, .closeList]     => (byteOperand t).map fun b => [b]
  | t :: .comma :: rest => (byteOperand t).bind fun b => (byteList rest).map (b :: ·)
  | _                   => none

/-- The operation a line's tokens stand for (R76, R77). R76 is silent on what a host variable's `<name>` may look like: any
word token is one, a number or a register name among them (DESIGN CHOICE, log 13). -/
def parseTokens : List Token → Option AsmOp
  | [.word m] =>
    if m = "INIT".toList then some .init
    else if m = "FINISH".toList then some .finish
    else if m = "WAIT".toList then some .wait
    else none
  | [.word m, .text cs] => if m = "ABSORBS".toList then (cs.mapM asciiByte).map .absorbs else none
  | [.word m, .arrow, .word d] =>
    if m = "READDIGEST".toList then some (.readDigest (String.ofList d)) else none
  | [.word m, .word r, .comma, .word v] =>
    if m = "WR".toList then (regOperand r).bind fun off => (wordOperand v).map (.wr off) else none
  | [.word m, .word r, .arrow, .word x] =>
    if m = "RD".toList then (regOperand r).map fun off => .rd off (String.ofList x) else none
  | [.word m, .text cs, .arrow, .word d] =>
    if m = "HASH".toList then (cs.mapM asciiByte).map fun bs => .hash bs (String.ofList d) else none
  | .word m :: .openList :: ts => if m = "ABSORBS".toList then (byteList ts).map .absorbs else none
  | [.word m, t] => if m = "ABSORB".toList then (byteOperand t).map .absorb else none
  | _ => none

/-- The operations of a line of text: none on an empty line or a comment, one otherwise (R76). -/
def parseLine (line : List Char) : Option (List AsmOp) :=
  match tokens line with
  | none    => none
  | some [] => some []
  | some ts => (parseTokens ts).map fun op => [op]

/-- The host's actions for a program, one operation a line (R76). -/
def assemble : List (List Char) → Option (List HostAction)
  | []      => some []
  | l :: ls => (parseLine l).bind fun ops => (assemble ls).map fun rest => ops.flatMap AsmOp.expand ++ rest

end Sys2Proof.Machine
end

