-- ==== Sys2Proof/Machine/Reference.lean ====
section
/-! DEFINITION. The functions the spec gives the hardware to implement: pad (41_padding.md R120), schedule
(42_schedule.md R149), compress (43_compression.md R167) and SHA256 (44_digest.md R182). The machine does not use them:
statements compare the machine with them. -/

namespace Sys2Proof.Reference

open Sys2Proof.Machine

/-- k, the number of zero bytes (R120). -/
def padCount (len : Nat) : Nat := (64 - ((len + 1 + 8) % 64)) % 64

/-- pad(M) (R120). R120 defines it for |M| ≤ 2^61 − 1 only; the function is total, and beyond that its length field is
8 × |M| modulo 2^64 (DESIGN CHOICE, log 21). -/
def pad (M : List Byte) : List Byte :=
  M ++ [0x80#8] ++ List.replicate (padCount M.length) 0#8 ++ be64bytes (BitVec.ofNat 64 (8 * M.length))

/-- The first t words of schedule(B), the newest first (R149): s[t-2] stands at 1, s[t-7] at 6, s[t-15] at 14 and
s[t-16] at 15. -/
def scheduleUpTo (B : Vector Word 16) : Nat → List Word
  | 0     => []
  | t + 1 =>
    let s := scheduleUpTo B t
    (if h : t < 16 then B[t] else smallSigma1 (s.getD 1 0) + s.getD 6 0 + smallSigma0 (s.getD 14 0) + s.getD 15 0) :: s

/-- schedule(B)[t] (R149). -/
def schedule (B : Vector Word 16) (t : Nat) : Word := (scheduleUpTo B (t + 1)).getD 0 0

/-- The working variables of compress(Hin, B) after t rounds (R167). -/
def varsAfter (Hin : Vector Word 8) (B : Vector Word 16) : Nat → WorkVars
  | 0     => ⟨Hin[0], Hin[1], Hin[2], Hin[3], Hin[4], Hin[5], Hin[6], Hin[7]⟩
  | t + 1 =>
    let v := varsAfter Hin B t
    let T1 := v.h + bigSigma1 v.e + ch v.e v.f v.g + Rom.K.toList.getD t 0 + schedule B t
    let T2 := bigSigma0 v.a + maj v.a v.b v.c
    ⟨T1 + T2, v.a, v.b, v.c, v.d + T1, v.e, v.f, v.g⟩

/-- compress(Hin, B) (R167). -/
def compress (Hin : Vector Word 8) (B : Vector Word 16) : Vector Word 8 :=
  let v := varsAfter Hin B 64
  #v[Hin[0] + v.a, Hin[1] + v.b, Hin[2] + v.c, Hin[3] + v.d, Hin[4] + v.e, Hin[5] + v.f, Hin[6] + v.g, Hin[7] + v.h]

/-- q, the number of blocks of pad(M) (R182). -/
def blockCount (M : List Byte) : Nat := (pad M).length / 64

/-- The j-th 64-byte block of pad(M) (R123). -/
def padBlock (M : List Byte) (j : Nat) : Vector Byte 64 :=
  Vector.ofFn fun i => (pad M).getD (64 * j + i) 0

/-- B_j, the words of the j-th block (R182). -/
def blockOf (M : List Byte) (j : Nat) : Vector Word 16 :=
  Vector.ofFn fun w =>
    be32 ((pad M).getD (64 * j + 4 * w) 0) ((pad M).getD (64 * j + 4 * w + 1) 0)
      ((pad M).getD (64 * j + 4 * w + 2) 0) ((pad M).getD (64 * j + 4 * w + 3) 0)

/-- H^(j) (R182). -/
def chain (M : List Byte) : Nat → Vector Word 8
  | 0     => Rom.IV
  | j + 1 => compress (chain M j) (blockOf M j)

/-- The eight words of SHA256(M) (R182). -/
def sha256Words (M : List Byte) : Vector Word 8 := chain M (blockCount M)

/-- SHA256(M) (R182). -/
def sha256 (M : List Byte) : List Byte := (sha256Words M).toList.flatMap wordBytes

end Sys2Proof.Reference
end

