-- ==== Sys2Proof/Safety.lean ====
section
/-! DEFINITION. Runs, safe runs, the host's duty, the end of a transaction, and the invariant of the machine, in the terms
the statements use. -/

namespace Sys2Proof.Machine

/-- `k` steps of the machine. -/
abbrev run (k : Nat) (s : State) : Host.Outcome State Fault Refusal := Sys2Proof.core.run k s

/-- No number of steps from `s` ends in a fault or a refusal: no host fault is recorded (70_reset_and_hazards.md R227) and
no access is refused (20_memory.md R53). -/
def SafeFrom (s : State) : Prop := ∀ k, ∃ t, run k s = .next t

/-- The end of a transaction: BUSY = 0 and PHASE = DONE or ERROR (70_reset_and_hazards.md R225). -/
def Ended (s : State) : Prop := s.busy = false ∧ (s.phase = .done ∨ s.phase = .error)

/-- A write of `v` to CMD may start a compression: ABSORB and FINISH may; INIT and an illegal word never do
(70_reset_and_hazards.md R226). -/
def mayStartCompression (v : Word) : Bool :=
  match decode v with
  | .ok .init       => false
  | .ok (.absorb _) => true
  | .ok .finish     => true
  | .error _        => false

/-- The host's duties on what it has pending (70_reset_and_hazards.md R226, R231): every access is supported, and a CMD
write is issued only where BUSY is known to be 0 (`idle`): at first, after WAIT or a reset, and after a CMD write that
starts no compression. -/
def keepsDuties : (idle : Bool) → List HostAction → Bool
  | _, []                        => true
  | idle, .read w off _ :: as    => supportedAccess w off && keepsDuties idle as
  | idle, .write w off v :: as   =>
    supportedAccess w off &&
      (if windowReg off = .cmd then idle && keepsDuties (!mayStartCompression v) as else keepsDuties idle as)
  | _, .wait :: as               => keepsDuties true as
  | _, .assertReset :: as        => keepsDuties true as

/-- The next step is the engine's. -/
def engineMoves (s : State) : Bool := !s.resetIn && decide (mover s = some .engine)

/-- How many of the first `k` steps are the engine's (70_reset_and_hazards.md R233). -/
def engineSteps : Nat → State → Nat
  | 0, _     => 0
  | k + 1, s =>
    (if engineMoves s then 1 else 0) +
      match step s with
      | .next t    => engineSteps k t
      | .fault _   => 0
      | .refused _ => 0

/-- The blocks that LOAD takes from buf in the first `k` steps, in order (41_padding.md R123). -/
def loadedBlocks : Nat → State → List (Vector Byte 64)
  | 0, _     => []
  | k + 1, s =>
    (if engineMoves s ∧ s.seq = .load then [s.buf] else []) ++
      match step s with
      | .next t    => loadedBlocks k t
      | .fault _   => []
      | .refused _ => []

/-- The number of message bytes absorbed since INIT, by the length counter (10_state.md R28). -/
def bytesAbsorbed (s : State) : Nat := s.L.toNat / 8

/-- What holds in every state that a run from reset reaches. -/
structure Inv (s : State) : Prop where
  /-- L counts whole bytes (R28), so it is never above 2^64 − 8. -/
  lengthWhole   : s.L.toNat % 8 = 0
  /-- When BUSY = 0, n ≤ 63 (R27). -/
  countReady    : s.busy = false → s.n ≤ 63
  /-- n is 64 only between the ABSORB that fills the block and its LOAD, and is 0 after LOAD (R27, R142). -/
  countLoad     : s.seq = .load → s.n ≤ 64 ∧ (s.n = 64 ↔ s.final = false)
  countCompress : s.busy = true → s.seq ≠ .load → s.n = 0
  /-- A compression is under way only inside a transaction, with no error recorded (R195, R103). -/
  busyAbsorbs   : s.busy = true → s.phase = .absorb
  /-- While a transaction accepts bytes, n is the number of bytes absorbed, modulo 64 (R27). -/
  countAbsorb   : s.busy = false → s.phase = .absorb → s.n = bytesAbsorbed s % 64
  /-- A block that ABSORB filled ends at a multiple of 64 bytes (R57). -/
  blockWhole    : s.busy = true → s.final = false → bytesAbsorbed s % 64 = 0
  /-- The final-block flag stands only while FINISH's blocks are compressed (R33). -/
  finalBusy     : s.final = true → s.busy = true
  /-- A length block is pending only after FINISH (R32). -/
  lenblkFinal   : s.lenblk = true → s.final = true
  /-- An error code stands exactly in phase ERROR (R30, R195). -/
  errPhase      : s.err ≠ .none ↔ s.phase = .error
  /-- No byte is absorbed outside a transaction (R29). -/
  idleEmpty     : s.phase = .idle → s.L = 0 ∧ s.n = 0
  /-- After FINISH, n is 0 (R103). -/
  doneEmpty     : s.phase = .done → s.n = 0

end Sys2Proof.Machine
end

