-- ==== Sys2Proof/Certificates/Slice0/Obligations.lean ====
section
/-! DEFINITION. The statements for the provers. Each docstring names the rules of spec/ it formalises.

Which agent moves at a step (`mover`, `turns`) is the spec's free interleaving (R61); that it is read from a list in the state
is the model's choice (log 3). A free value (`Config.freeWord`, `Config.freeCount`, drawn by `draws`) is the spec's "any
value"; its form is the model's choice (log 1 and 2). No statement rests on what a free value is. -/

open Sys2Proof Sys2Proof.Machine Sys2Proof.Reference

/-! ### Encoding (30_encoding.md) -/

/-- R70 to R73: a well-formed command's word has its OP, a reserved field of 0 and its message byte as DATA; decoding it,
as a word or as a row of the opcode table, gives the command back; and a word that decodes is the word of the command it
decodes to, so each command has one word. -/
def Obligations.DecodeAndEncodeAgree : Prop :=
  (∀ i : Instr, i.wf = true →
    decode (encode i) = .ok i ∧ decodeTableWord 32 (encode i).toNat = some i ∧
    opField (encode i) = (match i with | .init => 1#4 | .absorb _ => 2#4 | .finish => 3#4) ∧
    rsvField (encode i) = 0#20 ∧
    dataField (encode i) = (match i with | .init => 0#8 | .absorb b => b | .finish => 0#8)) ∧
  (∀ (w : Word) (i : Instr), decode w = .ok i → encode i = w ∧ i.wf = true) ∧
  (∀ i j : Instr, encode i = encode j → i = j)

/-- R72: the legal words are exactly those of the three rows, 258 in number; the decoder accepts exactly them, each as
its row's command; every other word, written with BUSY = 0, records ILLEGAL_CMD and does nothing else. -/
def Obligations.LegalWordsAreTheTableRows : Prop :=
  (∀ w : Word, decode w = .ok .init ↔ w &&& 0xFFFFFFFF#32 = 0x10000000#32) ∧
  (∀ w : Word, (∃ b, decode w = .ok (.absorb b)) ↔ w &&& 0xFFFFFF00#32 = 0x20000000#32) ∧
  (∀ (w : Word) (b : Byte), decode w = .ok (.absorb b) ↔ w = 0x20000000#32 + b.setWidth 32) ∧
  (∀ w : Word, decode w = .ok .finish ↔ w &&& 0xFFFFFFFF#32 = 0x30000000#32) ∧
  (∀ w : Word, legalWord w = true ↔
    w &&& 0xFFFFFFFF#32 = 0x10000000#32 ∨ w &&& 0xFFFFFF00#32 = 0x20000000#32 ∨ w &&& 0xFFFFFFFF#32 = 0x30000000#32) ∧
  (∃ ws : List Word, ws.length = 258 ∧ ws.Nodup ∧ ∀ w, legalWord w = true ↔ w ∈ ws) ∧
  (∀ (w : Word) (s : State), s.seq = .ready → legalWord w = false →
    commandWrite w s = .next (if s.phase = .error then s else { s with err := .illegalCmd, phase := .error }))

/-- Words written out from the encodings of R72 decode to the commands they stand for, and words of the reserved space
(R75) to none. -/
def Obligations.DecodesWordsOfTheSpec : Prop :=
  decode 0x10000000#32 = .ok .init ∧ decode 0x20000000#32 = .ok (.absorb 0x00) ∧
  decode 0x20000061#32 = .ok (.absorb 0x61) ∧ decode 0x200000ff#32 = .ok (.absorb 0xff) ∧
  decode 0x30000000#32 = .ok .finish ∧ decodeTableWord 32 0x20000080 = some (.absorb 0x80) ∧
  decodeTableWord 32 0x00000000 = none ∧ decodeTableWord 32 0x10000001 = none ∧
  decodeTableWord 32 0x20000161 = none ∧ decodeTableWord 32 0x30000080 = none ∧
  decodeTableWord 32 0x40000000 = none ∧ decodeTableWord 32 0xf0000000 = none

/-! ### The command dispatch (40_commands.md R100) -/

/-- When the host's next access writes to CMD a word that decodes to i, and the host moves, the step is exec of i at the
state with that access (and the schedule's entry, where it decided) taken off (R70, R100). The second clause is about a word
placed by withFetchWord, which puts its write first, releases the reset input and, with BUSY = 1, gives the host the turn:
that clause is the model's choice (log 12). -/
def Obligations.StepRunsTheDecodedCommand : Prop :=
  (∀ (s : State) (v : Word) (i : Instr) (rest : List HostAction),
    s.resetIn = false → s.host = .write .w32 0x00 v :: rest → (s.busy = true → s.turns.head? = some .host) →
    decode v = .ok i →
    step s = exec i { s with host := rest, turns := if s.busy then s.turns.tail else s.turns }) ∧
  (∀ (s : State) (v : Word) (i : Instr), decode v = .ok i →
    step (s.withFetchWord 32 v.toNat) = exec i { s with resetIn := false })

/-- R100: on the host's write to CMD, the hardware does the first that applies of: host fault, ILLEGAL_CMD, INIT,
SEQUENCE, ABSORB, FINISH; what it does has taken effect in the state after that one step. -/
def Obligations.CommandDispatchInOrder : Prop :=
  ∀ (s : State) (v : Word) (rest : List HostAction),
    s.resetIn = false → s.host = .write .w32 0x00 v :: rest → (s.busy = true → s.turns.head? = some .host) →
    let p := { s with host := rest, turns := if s.busy then s.turns.tail else s.turns }
    step s =
      if s.seq ≠ .ready then .fault .cmdWhileBusy
      else if legalWord v = false then .next (raiseError .illegalCmd p)
      else if v = 0x10000000#32 then exec .init p
      else if s.phase ≠ .absorb then .next (raiseError .sequence p)
      else if v &&& 0xFFFFFF00#32 = 0x20000000#32 then exec (.absorb (v.extractLsb' 0 8)) p
      else exec .finish p

/-! ### The commands (40_commands.md R101 to R103) -/

/-- R101: INIT, accepted in every phase with BUSY = 0, starts a transaction; nothing else changes; STATUS is 0x00000002,
LEN 0 and DIGESTi IV[i]. -/
def Obligations.InitStartsATransaction : Prop :=
  (∀ s : State, s.seq = .ready →
    ∃ t, exec .init s = .next t ∧
      t = { s with H := Rom.IV, L := 0, n := 0, lenblk := false, final := false, err := .none, phase := .absorb } ∧
      t.statusWord = 0x00000002#32 ∧ readReg .lenLo t = 0 ∧ readReg .lenHi t = 0 ∧
      ∀ i : Fin 8, readReg (.digest i) t = Rom.IV[i]) ∧
  (∀ s : State, s.seq ≠ .ready → exec .init s = .fault .cmdWhileBusy) ∧
  (∀ w : Word, decode w = .ok .init ↔ w = 0x10000000#32)

/-- R102: ABSORB b with BUSY = 0 in phase ABSORB. Below the length limit it stores b at buf[n] and counts it, and the byte
that fills buf[63] starts the compression; at the limit it raises LENGTH_OVERFLOW and nothing else changes. -/
def Obligations.AbsorbAppendsAByte : Prop :=
  (∀ (b : Byte) (s : State), s.seq = .ready → s.phase = .absorb → s.n ≤ 63 → s.L.toNat ≠ 2 ^ 64 - 8 →
    ∃ t, exec (.absorb b) s = .next t ∧
      t = { s with buf := t.buf, n := s.n + 1, L := s.L + 8, seq := if s.n + 1 = 64 then .load else .ready } ∧
      (∀ j : Fin 64, t.buf[j] = if j.val = s.n then b else s.buf[j]) ∧
      t.busy = decide (s.n + 1 = 64) ∧ t.phase = .absorb ∧
      (t.busy = false → t.bufCountField = BitVec.ofNat 6 (s.n + 1))) ∧
  (∀ (b : Byte) (s : State), s.seq = .ready → s.phase = .absorb → s.L.toNat = 2 ^ 64 - 8 →
    exec (.absorb b) s = .next { s with err := .lengthOverflow, phase := .error }) ∧
  (∀ (b : Byte) (s : State), s.seq = .ready → s.phase ≠ .absorb →
    exec (.absorb b) s = .next (raiseError .sequence s)) ∧
  (∀ (b : Byte) (s : State), s.seq ≠ .ready → exec (.absorb b) s = .fault .cmdWhileBusy) ∧
  (∀ (w : Word) (b : Byte), decode w = .ok (.absorb b) ↔ w = 0x20000000#32 + b.setWidth 32)

/-- R122 with R103: FINISH with BUSY = 0 in phase ABSORB always completes; it writes the marker, the zeros, and the length
field where it fits, else lenblk; it marks the transaction as ending and starts the compression. -/
def Obligations.FinishPadsTheBlock : Prop :=
  ∀ s : State, s.seq = .ready → s.phase = .absorb → s.n ≤ 63 →
    ∃ t, exec .finish s = .next t ∧
      t = { s with buf := t.buf, lenblk := decide (56 ≤ s.n), final := true, seq := .load } ∧
      t.busy = true ∧
      ∀ j : Fin 64, t.buf[j] =
        if j.val < s.n then s.buf[j]
        else if j.val = s.n then 0x80#8
        else if s.n ≤ 55 ∧ 56 ≤ j.val then s.L.extractLsb' (56 - 8 * (j.val - 56)) 8
        else 0x00#8

/-- R103: FINISH with BUSY = 0 in phase ABSORB pads, sets final and starts the compression; the engine compresses one
block, or two when n ≥ 56, and then PHASE is DONE and STATUS 0x00000004; LEN is unchanged; while busy PHASE is ABSORB;
afterwards ABSORB and FINISH are turned away with SEQUENCE. FINISH outside phase ABSORB raises SEQUENCE. That this takes
exactly 66 or 132 engine steps, BUSY = 1 before each, is the spec's own inference, marked so in R140, in the reference step
granularity of R233, which the model takes (log 15). -/
def Obligations.FinishRunsToDone : Prop :=
  (∀ s : State, Inv s → s.seq = .ready → s.phase = .absorb → s.resetIn = false → s.host = [] →
    ∃ t u, exec .finish s = .next t ∧ t = { padFinal s with final := true, seq := .load } ∧
      t.busy = true ∧ t.phase = .absorb ∧
      run (if s.n ≤ 55 then 66 else 132) t = .next u ∧
      u.seq = .ready ∧ u.phase = .done ∧ u.statusWord = 0x00000004#32 ∧ u.L = s.L ∧
      (∀ k, k < (if s.n ≤ 55 then 66 else 132) →
        ∃ v, run k t = .next v ∧ v.busy = true ∧ v.phase = .absorb ∧ v.L = s.L) ∧
      exec .finish u = .next { u with err := .sequence, phase := .error } ∧
      ∀ b, exec (.absorb b) u = .next { u with err := .sequence, phase := .error }) ∧
  (∀ s : State, s.seq = .ready → s.phase ≠ .absorb → exec .finish s = .next (raiseError .sequence s)) ∧
  (∀ s : State, s.seq ≠ .ready → exec .finish s = .fault .cmdWhileBusy) ∧
  (∀ w : Word, decode w = .ok .finish ↔ w = 0x30000000#32)

/-- The frame of the commands: what INIT, ABSORB and FINISH leave unchanged whenever they answer a next state, errors
included. W, a..h, the host's side and the reset input are never written; H only by INIT; L and n only by INIT and
ABSORB; buf only at n by ABSORB and from n on by FINISH; seq only by ABSORB and FINISH; lenblk and final only by INIT and
FINISH. -/
def Obligations.CommandsFrame : Prop :=
  ∀ (i : Instr) (s t : State), exec i s = .next t →
    t.wv = s.wv ∧ t.W = s.W ∧ t.resetIn = s.resetIn ∧ t.host = s.host ∧ t.vars = s.vars ∧ t.turns = s.turns ∧
    t.draws = s.draws ∧
    (i ≠ .init → t.H = s.H ∧ (s.phase ≠ .absorb → t.L = s.L ∧ t.n = s.n ∧ t.buf = s.buf ∧ t.seq = s.seq)) ∧
    (i = .init → t.buf = s.buf ∧ t.seq = s.seq) ∧
    (i = .finish → t.L = s.L ∧ t.n = s.n ∧ ∀ j : Fin 64, j.val < s.n → t.buf[j] = s.buf[j]) ∧
    (∀ b, i = .absorb b →
      t.lenblk = s.lenblk ∧ t.final = s.final ∧ ∀ j : Fin 64, j.val ≠ s.n → t.buf[j] = s.buf[j]) ∧
    (t.err = s.err ∨ t.phase = .error ∨ i = .init)

/-! ### Errors (60_exceptions.md) -/

/-- R194: a write to CMD, with BUSY = 0, of a word that is no legal command raises ILLEGAL_CMD in every phase and does
nothing else; in phase ERROR the first code is kept. -/
def Obligations.IllegalWordRecordsIllegalCmd : Prop :=
  ∀ (s : State) (v : Word) (rest : List HostAction),
    s.resetIn = false → s.host = .write .w32 0x00 v :: rest → s.seq = .ready → legalWord v = false →
    step s = .next
      (if s.phase = .error then { s with host := rest }
       else { s with host := rest, err := .illegalCmd, phase := .error })

/-- R195: recording an error writes err and phase, and only where no error is recorded yet; nothing else changes. -/
def Obligations.FirstErrorIsKept : Prop :=
  ∀ (c : ErrCode) (s : State),
    (s.phase ≠ .error → raiseError c s = { s with err := c, phase := .error }) ∧
    (s.phase = .error → raiseError c s = s)

/-- R196: a legal ABSORB or FINISH with BUSY = 0 outside phase ABSORB raises SEQUENCE; in phase ERROR it has no effect. -/
def Obligations.SequenceErrors : Prop :=
  ∀ (i : Instr) (s : State), i ≠ .init → s.seq = .ready → s.phase ≠ .absorb →
    exec i s = .next (if s.phase = .error then s else { s with err := .sequence, phase := .error })

/-- R193: the 2^61-th byte raises LENGTH_OVERFLOW: buf, n and L are unchanged and FINISH then does nothing. -/
def Obligations.LengthOverflowRejectsTheByte : Prop :=
  ∀ (b : Byte) (s : State), s.seq = .ready → s.phase = .absorb → s.L.toNat = 2 ^ 64 - 8 →
    ∃ t, exec (.absorb b) s = .next t ∧ t = { s with err := .lengthOverflow, phase := .error } ∧
      exec .finish t = .next t

/-- R198: phase ERROR is entered only by the two writes of R195, on a host's write to CMD with BUSY = 0; in it no step but
INIT's or a reset leaves the phase or changes the code, H, L, n or buf; INIT and a reset clear the error. -/
def Obligations.EnteringAndLeavingError : Prop :=
  (∀ s t : State, s.phase ≠ .error → step s = .next t → t.phase = .error →
    s.seq = .ready ∧ (∃ v, s.host.head? = some (.write .w32 0x00 v)) ∧ t.err ≠ .none ∧
      t = { s with err := t.err, phase := .error, host := s.host.tail }) ∧
  (∀ s t : State, Inv s → s.phase = .error → step s = .next t →
    (s.resetIn = true ∧ t.phase = .idle ∧ t.err = .none) ∨
    (s.resetIn = false ∧ t.phase = .error ∧ t.err = s.err ∧ t.H = s.H ∧ t.L = s.L ∧ t.n = s.n ∧ t.buf = s.buf) ∨
    (s.resetIn = false ∧ s.host.head? = some (.write .w32 0x00 0x10000000#32) ∧ t.phase = .absorb ∧ t.err = .none))

/-- R224: only INIT opens a transaction, and it resets H, L, n, lenblk, final and err, so that nothing of the last
transaction is carried into the next; after DONE or ERROR every other command at most records an error. -/
def Obligations.TransactionsStartAfresh : Prop :=
  (∀ s s' : State, s.seq = .ready → s'.seq = .ready →
    ∃ t t', exec .init s = .next t ∧ exec .init s' = .next t' ∧
      t.H = t'.H ∧ t.L = t'.L ∧ t.n = t'.n ∧ t.lenblk = t'.lenblk ∧ t.final = t'.final ∧ t.err = t'.err ∧
      t.phase = t'.phase ∧ t.H = Rom.IV) ∧
  (∀ (i : Instr) (s : State), s.seq = .ready → s.phase = .done ∨ s.phase = .error → i ≠ .init →
    ∃ t, exec i s = .next t ∧ t = { s with err := t.err, phase := .error } ∧ (s.phase = .error → t = s)) ∧
  (∀ s t : State, s.phase ≠ .absorb → step s = .next t → t.phase = .absorb →
    s.resetIn = false ∧ s.seq = .ready ∧ s.host.head? = some (.write .w32 0x00 0x10000000#32) ∧ t.H = Rom.IV ∧ t.L = 0)

/-- R191: no message is an error: below the length limit every byte is accepted, FINISH is accepted with any number of
bytes, none included, and the engine's steps record no error. -/
def Obligations.NoMessageIsAnError : Prop :=
  (∀ (b : Byte) (s : State), s.seq = .ready → s.phase = .absorb → s.L.toNat ≠ 2 ^ 64 - 8 →
    ∃ t, exec (.absorb b) s = .next t ∧ t.phase = .absorb ∧ t.err = s.err) ∧
  (∀ s : State, s.seq = .ready → s.phase = .absorb →
    ∃ t, exec .finish s = .next t ∧ t.phase = .absorb ∧ t.err = s.err) ∧
  (∀ s : State, s.seq = .ready →
    ∃ t u, exec .init s = .next t ∧ exec .finish t = .next u ∧ u.err = .none ∧ u.phase = .absorb) ∧
  (∀ s : State, s.resetIn = false → mover s = some .engine →
    ∃ t, step s = .next t ∧ t.err = s.err ∧ (t.phase = s.phase ∨ t.phase = .done))

/-- R227: the machine faults on exactly a write to CMD while BUSY = 1; no later step clears the fault; and every command's
meaning faults while BUSY = 1. -/
def Obligations.OnlyACommandWhileBusyFaults : Prop :=
  (∀ (s : State) (r : Fault), step s = .fault r ↔
    s.resetIn = false ∧ s.busy = true ∧ mover s = some .host ∧ ∃ v, s.host.head? = some (.write .w32 0x00 v)) ∧
  (∀ (i : Instr) (s : State), s.busy = true → exec i s = .fault .cmdWhileBusy) ∧
  (∀ (k m : Nat) (s : State) (r : Fault), run k s = .fault r → run (k + m) s = .fault r)

/-- R53: the machine refuses exactly the host's accesses that are not 32 bits wide or not 4-byte aligned. -/
def Obligations.OnlyUnsupportedAccessesAreRefused : Prop :=
  ∀ (s : State) (r : Refusal), step s = .refused r ↔
    r = .unsupportedAccess ∧ s.resetIn = false ∧ mover s = some .host ∧
      ∃ (w : Width) (off : Offset), ¬(w = .w32 ∧ off.toNat % 4 = 0) ∧
        ((∃ var, s.host.head? = some (.read w off var)) ∨ ∃ v, s.host.head? = some (.write w off v))

/-! ### The engine (42_schedule.md, 43_compression.md) -/

/-- R140: the engine has a step exactly when seq is not READY; a step of the engine is the one seq names. That a busy engine
moves where the schedule is at its end, whatever the host has pending, is the model's choice (log 3). -/
def Obligations.EngineStepsExactlyWhenBusy : Prop :=
  (∀ s : State, s.resetIn = false → mover s = some .engine →
    s.seq ≠ .ready ∧ step s = .next (engineStep (takeTurn s))) ∧
  (∀ s : State, s.seq ≠ .ready → s.host = [] → mover s = some .engine) ∧
  (∀ s : State, s.seq ≠ .ready → s.turns = [] → mover s = some .engine) ∧
  (∀ s : State, s.seq = .ready → engineStep s = s) ∧
  (∀ s : State, s.seq = .load → engineStep s = loadStep s) ∧
  (∀ (s : State) (t : Fin 64), s.seq = .round t → engineStep s = roundStep t s) ∧
  (∀ s : State, s.seq = .fold → engineStep s = foldStep s)

/-- R142: LOAD takes the sixteen big-endian words of the buffer into W[0..15] and H into a..h, empties the buffer's count,
and leaves everything else, W[16..63] among it. -/
def Obligations.LoadTakesTheBlock : Prop :=
  ∀ s : State, s.seq = .load →
    ∃ t, engineStep s = t ∧
      t = { s with W := t.W, n := 0, seq := .round 0,
                   wv := ⟨s.H[0], s.H[1], s.H[2], s.H[3], s.H[4], s.H[5], s.H[6], s.H[7]⟩ } ∧
      (∀ j : Fin 16, t.W[j.val] =
        s.buf[4 * j.val] ++ s.buf[4 * j.val + 1] ++ s.buf[4 * j.val + 2] ++ s.buf[4 * j.val + 3]) ∧
      (∀ j : Fin 64, 16 ≤ j.val → t.W[j] = s.W[j])

/-- R166 with R148: ROUND(t) expands W[t] first when t ≥ 16, then makes the eight simultaneous assignments from T1 and T2,
and moves the sequencer; everything else is unchanged. -/
def Obligations.RoundStepResult : Prop :=
  ∀ (s : State) (t : Fin 64), s.seq = .round t →
    ∃ u w T1 T2, engineStep s = u ∧
      w = (if 16 ≤ t.val then
             smallSigma1 s.W[t.val - 2] + s.W[t.val - 7] + smallSigma0 s.W[t.val - 15] + s.W[t.val - 16]
           else s.W[t]) ∧
      T1 = s.wv.h + bigSigma1 s.wv.e + ch s.wv.e s.wv.f s.wv.g + Rom.K[t] + w ∧
      T2 = bigSigma0 s.wv.a + maj s.wv.a s.wv.b s.wv.c ∧
      u = { s with W := u.W, seq := u.seq,
                   wv := ⟨T1 + T2, s.wv.a, s.wv.b, s.wv.c, s.wv.d + T1, s.wv.e, s.wv.f, s.wv.g⟩ } ∧
      u.W[t] = w ∧ (∀ j : Fin 64, j ≠ t → u.W[j] = s.W[j]) ∧
      (∀ h : t.val < 63, u.seq = .round ⟨t.val + 1, by omega⟩) ∧ (t.val = 63 → u.seq = .fold)

/-- R168 and R169 with R124: FOLD adds a..h into H word by word; then it prepares the length block, ends the transaction,
or goes back to absorbing; everything else is unchanged. -/
def Obligations.FoldStepResult : Prop :=
  ∀ s : State, s.seq = .fold →
    ∃ t, engineStep s = t ∧
      t.H[0] = s.H[0] + s.wv.a ∧ t.H[1] = s.H[1] + s.wv.b ∧ t.H[2] = s.H[2] + s.wv.c ∧ t.H[3] = s.H[3] + s.wv.d ∧
      t.H[4] = s.H[4] + s.wv.e ∧ t.H[5] = s.H[5] + s.wv.f ∧ t.H[6] = s.H[6] + s.wv.g ∧ t.H[7] = s.H[7] + s.wv.h ∧
      (s.lenblk = true →
        t = { s with H := t.H, buf := t.buf, lenblk := false, seq := .load } ∧
        ∀ j : Fin 64, t.buf[j] = if j.val ≤ 55 then 0x00#8 else s.L.extractLsb' (56 - 8 * (j.val - 56)) 8) ∧
      (s.lenblk = false → s.final = true → t = { s with H := t.H, final := false, phase := .done, seq := .ready }) ∧
      (s.lenblk = false → s.final = false → t = { s with H := t.H, seq := .ready })

/-- R141: a step goes from LOAD to ROUND(0), from ROUND(t) to ROUND(t+1) or FOLD, by an engine step alone; a compression
starts only by the ABSORB that fills buf, by FINISH, or by the FOLD of a block with lenblk = 1. -/
def Obligations.BlockIterationOrder : Prop :=
  ∀ s t : State, s.resetIn = false → step s = .next t →
    (s.busy = true → mover s = some .host → t.seq = s.seq) ∧
    (s.seq = .load → mover s = some .engine →
      t.seq = .round 0 ∧ t.wv = ⟨s.H[0], s.H[1], s.H[2], s.H[3], s.H[4], s.H[5], s.H[6], s.H[7]⟩) ∧
    (∀ r : Fin 64, s.seq = .round r → mover s = some .engine →
      (∀ h : r.val < 63, t.seq = .round ⟨r.val + 1, by omega⟩) ∧ (r.val = 63 → t.seq = .fold)) ∧
    (s.seq = .fold → mover s = some .engine → t.seq = if s.lenblk then .load else .ready) ∧
    (s.seq = .ready → t.seq ≠ .ready →
      t.seq = .load ∧ s.phase = .absorb ∧
        ((s.n = 63 ∧ ∃ b : Byte, s.host.head? = some (.write .w32 0x00 (0x20000000#32 + b.setWidth 32))) ∨
          s.host.head? = some (.write .w32 0x00 0x30000000#32)))

/-- R144 and R145: bit i of ROTRn(x) is bit (i + n) mod 32 of x, and bit i of SHRn(x) is bit i + n of x or 0. -/
def Obligations.RotationAndShiftBits : Prop :=
  (∀ (n : Nat) (x : Word) (i : Nat), 1 ≤ n → n ≤ 31 → i < 32 →
    (rotr n x).getLsbD i = x.getLsbD ((i + n) % 32)) ∧
  (∀ (n : Nat) (x : Word) (i : Nat), i < 32 →
    (shr n x).getLsbD i = if i + n < 32 then x.getLsbD (i + n) else false)

/-- R146, R147, R160, R161: each bit of σ0, σ1, Σ0 and Σ1 is the exclusive or of the three bits of x that the rotations
and shifts bring there. -/
def Obligations.SigmaFunctionBits : Prop :=
  ∀ (x : Word) (i : Nat), i < 32 →
    (smallSigma0 x).getLsbD i =
      ((x.getLsbD ((i + 7) % 32) ^^ x.getLsbD ((i + 18) % 32)) ^^ (decide (i < 29) && x.getLsbD (i + 3))) ∧
    (smallSigma1 x).getLsbD i =
      ((x.getLsbD ((i + 17) % 32) ^^ x.getLsbD ((i + 19) % 32)) ^^ (decide (i < 22) && x.getLsbD (i + 10))) ∧
    (bigSigma0 x).getLsbD i =
      ((x.getLsbD ((i + 2) % 32) ^^ x.getLsbD ((i + 13) % 32)) ^^ x.getLsbD ((i + 22) % 32)) ∧
    (bigSigma1 x).getLsbD i =
      ((x.getLsbD ((i + 6) % 32) ^^ x.getLsbD ((i + 11) % 32)) ^^ x.getLsbD ((i + 25) % 32))

/-- R162 and R163: Ch chooses y's bit where x's is 1 and z's where it is 0; Maj is the bitwise majority. -/
def Obligations.ChooseAndMajorityBits : Prop :=
  ∀ (x y z : Word) (i : Nat), i < 32 →
    (ch x y z).getLsbD i = (if x.getLsbD i then y.getLsbD i else z.getLsbD i) ∧
    (maj x y z).getLsbD i =
      decide (2 ≤ (x.getLsbD i).toNat + (y.getLsbD i).toNat + (z.getLsbD i).toNat)

/-- R170: the sums of the expander, the round and the fold are taken modulo 2^32, and a sum that exceeds 2^32 − 1 sets no
flag and raises no error. -/
def Obligations.WordSumsWrap : Prop :=
  (∀ (W : Vector Word 64) (t : Fin 64), (expandedWord W t).toNat =
    ((smallSigma1 W[t.val - 2]).toNat + W[t.val - 7].toNat + (smallSigma0 W[t.val - 15]).toNat + W[t.val - 16].toNat)
      % 2 ^ 32) ∧
  (∀ (k w : Word) (v : WorkVars),
    (roundVars k w v).e.toNat = (v.d.toNat + v.h.toNat + (bigSigma1 v.e).toNat + (ch v.e v.f v.g).toNat + k.toNat +
      w.toNat) % 2 ^ 32 ∧
    (roundVars k w v).a.toNat = (v.h.toNat + (bigSigma1 v.e).toNat + (ch v.e v.f v.g).toNat + k.toNat + w.toNat +
      (bigSigma0 v.a).toNat + (maj v.a v.b v.c).toNat) % 2 ^ 32) ∧
  (∀ (H : Vector Word 8) (v : WorkVars), (foldedH H v)[0].toNat = (H[0].toNat + v.a.toNat) % 2 ^ 32 ∧
    (foldedH H v)[1].toNat = (H[1].toNat + v.b.toNat) % 2 ^ 32 ∧ (foldedH H v)[2].toNat = (H[2].toNat + v.c.toNat) % 2 ^ 32 ∧
    (foldedH H v)[3].toNat = (H[3].toNat + v.d.toNat) % 2 ^ 32 ∧ (foldedH H v)[4].toNat = (H[4].toNat + v.e.toNat) % 2 ^ 32 ∧
    (foldedH H v)[5].toNat = (H[5].toNat + v.f.toNat) % 2 ^ 32 ∧ (foldedH H v)[6].toNat = (H[6].toNat + v.g.toNat) % 2 ^ 32 ∧
    (foldedH H v)[7].toNat = (H[7].toNat + v.h.toNat) % 2 ^ 32) ∧
  (∀ s : State, (engineStep s).err = s.err ∧ ((engineStep s).phase = s.phase ∨ s.seq = .fold))

/-- R149: schedule(B) is the block's words followed by the recurrence, and W[t] is schedule(B)[t] once ROUND(t) has
written and read it, B being the block LOAD took. The spec's own
inference, marked so in R149. -/
def Obligations.RoundsReadTheSchedule : Prop :=
  (∀ (B : Vector Word 16) (t : Fin 16), schedule B t = B[t]) ∧
  (∀ (B : Vector Word 16) (t : Nat), 16 ≤ t → t ≤ 63 → schedule B t =
    smallSigma1 (schedule B (t - 2)) + schedule B (t - 7) + smallSigma0 (schedule B (t - 15)) + schedule B (t - 16)) ∧
  (∀ (s : State) (t : Fin 64), s.seq = .load → s.resetIn = false → s.host = [] →
    ∃ u, run (t.val + 2) s = .next u ∧ u.W[t] = schedule (blockWords s.buf) t ∧
      u.wv = varsAfter s.H (blockWords s.buf) (t.val + 1))

/-- R167: the 66 engine steps from LOAD to the end of FOLD put compress(H, B) into H, B being the block LOAD took, and
change nothing else but n, W, a..h and what FOLD's second part writes. The spec's own inference, marked so in R167. -/
def Obligations.OneBlockIsCompressed : Prop :=
  ∀ s : State, s.seq = .load → s.resetIn = false → s.host = [] →
    ∃ t, run 66 s = .next t ∧ t.H = compress s.H (blockWords s.buf) ∧ t.n = 0 ∧ t.L = s.L ∧ t.err = s.err ∧
      t.resetIn = false ∧ t.host = [] ∧ t.vars = s.vars ∧ t.turns = s.turns ∧ t.draws = s.draws ∧
      (s.lenblk = true → t.seq = .load ∧ t.lenblk = false ∧ t.final = s.final ∧ t.phase = s.phase ∧
        t.buf = lengthBlockBuf s.L) ∧
      (s.lenblk = false → t.seq = .ready ∧ t.lenblk = false ∧ t.final = false ∧ t.buf = s.buf ∧
        t.phase = if s.final then .done else s.phase)

/-- R140: a busy period that LOAD begins ends after exactly 66 engine steps, or 132 when a length block is pending. The
spec's own inference, marked so in R140. -/
def Obligations.BusyPeriodLength : Prop :=
  ∀ s : State, s.seq = .load → s.resetIn = false → s.host = [] →
    (∃ t, run (if s.lenblk then 132 else 66) s = .next t ∧ t.busy = false) ∧
    ∀ k, k < (if s.lenblk then 132 else 66) → ∃ t, run k s = .next t ∧ t.busy = true

/-- Weak fairness (R140): whatever the host has pending and whatever the schedule, a machine that does not stop is not
busy for longer than the engine's 132 steps and the host's scheduled turns. That the engine
moves past the schedule's end is the model's choice (log 3). -/
def Obligations.EveryBusyPeriodEnds : Prop :=
  ∀ s : State, SafeFrom s → ∃ k t, k ≤ 133 + s.turns.length ∧ run k s = .next t ∧ t.busy = false

/-- R234: while an engine step leaves the engine busy, BUSY, PHASE, ERR and LEN do not change. The spec's
own inference, marked so in R234. The last two clauses, that the draw counter and so the whole STATUS word are unchanged,
BUFCOUNT among it (any value, R36), are the model's choice: its free value is a function of the draw counter (log 2). -/
def Obligations.NothingShowsWhileBusy : Prop :=
  ∀ s : State, s.busy = true → (engineStep s).busy = true →
    (engineStep s).phase = s.phase ∧ (engineStep s).err = s.err ∧ (engineStep s).L = s.L ∧
    (engineStep s).draws = s.draws ∧ (engineStep s).statusWord = s.statusWord

/-! ### Padding (41_padding.md) -/

/-- R120: pad(M) byte by byte, its length, and the least number of zero bytes. The last two clauses, k and the number
of blocks by |M| mod 64, are R125's, the spec's own inference, marked so there. R120 speaks of |M| ≤ 2^61 − 1; what the
clauses say of a longer M, whose length field is 8 × |M| modulo 2^64, is the model's choice (log 21). -/
def Obligations.PaddingFunction : Prop :=
  ∀ M : List Byte,
    (∀ i, i < M.length → (pad M)[i]? = M[i]?) ∧ (pad M)[M.length]? = some 0x80#8 ∧
    (∀ i, M.length < i → i ≤ M.length + padCount M.length → (pad M)[i]? = some 0x00#8) ∧
    (∀ i, i < 8 → (pad M)[M.length + 1 + padCount M.length + i]? =
      some ((BitVec.ofNat 64 (8 * M.length)).extractLsb' (56 - 8 * i) 8)) ∧
    (pad M).length = M.length + 9 + padCount M.length ∧ (pad M).length % 64 = 0 ∧ M.length < (pad M).length ∧
    (∀ q, M.length + 9 ≤ 64 * q → (pad M).length ≤ 64 * q) ∧
    (∀ k, (M.length + 1 + k + 8) % 64 = 0 → padCount M.length ≤ k) ∧ padCount M.length ≤ 63 ∧
    padCount M.length = (64 - ((M.length + 1 + 8) % 64)) % 64 ∧
    (8 * M.length + 8 + 8 * padCount M.length) % 512 = 448 ∧
    (M.length % 64 ≤ 55 → padCount M.length = 55 - M.length % 64 ∧ blockCount M = M.length / 64 + 1) ∧
    (56 ≤ M.length % 64 → padCount M.length = 119 - M.length % 64 ∧ blockCount M = M.length / 64 + 2)

/-- R121: the padding controller never reads a message byte: what FINISH and the length block write does not depend on
them, and FINISH leaves them as they are; what ABSORB does does not depend on the byte, but for buf[n]; and ABSORB writes its
byte at buf[n], or nothing, and no other byte of buf, so that it never writes the marker of its own. -/
def Obligations.PaddingNeverReadsTheMessage : Prop :=
  (∀ (s : State) (buf' : Vector Byte 64),
    (∀ j : Fin 64, s.n ≤ j.val → (padFinal { s with buf := buf' }).buf[j] = (padFinal s).buf[j]) ∧
    (∀ j : Fin 64, j.val < s.n → (padFinal { s with buf := buf' }).buf[j] = buf'[j]) ∧
    (padFinal { s with buf := buf' }).lenblk = (padFinal s).lenblk ∧
    (lengthBlock { s with buf := buf' }).buf = (lengthBlock s).buf) ∧
  (∀ (b b' : Byte) (s t : State), exec (.absorb b) s = .next t →
    ∃ t', exec (.absorb b') s = .next t' ∧ t' = { t with buf := t'.buf } ∧
      ∀ j : Fin 64, j.val ≠ s.n → t'.buf[j] = t.buf[j]) ∧
  (∀ (b : Byte) (s t : State), exec (.absorb b) s = .next t →
    ∀ j : Fin 64, (j.val ≠ s.n → t.buf[j] = s.buf[j]) ∧
      (j.val = s.n → t.buf[j] = if s.phase = .absorb ∧ s.L.toNat ≠ 2 ^ 64 - 8 then b else s.buf[j]))

/-- R123: in a transaction in which the host waits while BUSY, the blocks LOAD takes from buf are exactly the consecutive
blocks of pad(M), whatever the schedule. The spec's own inference, marked so in R123. -/
def Obligations.LoadedBlocksAreThePaddedMessage : Prop :=
  ∀ (M : List Byte) (var : String) (s : State), M.length ≤ 2 ^ 61 - 1 → s.seq = .ready → s.resetIn = false →
    s.host = (AsmOp.hash M var).expand →
    ∃ k t, run k s = .next t ∧ t.host = [] ∧
      loadedBlocks k s = (List.range (blockCount M)).map (padBlock M)

/-! ### The digest (44_digest.md) -/

/-- R180: the digest bytes are the big-endian bytes of H[0], then H[1], up to H[7]: D[4i + j] = H[i][31 - 8j : 24 - 8j]. -/
def Obligations.DigestSerialization : Prop :=
  ∀ H : Vector Word 8, (digestBytes H).length = 32 ∧
    ∀ (i : Fin 8) (j : Fin 4), (digestBytes H)[4 * i.val + j.val]? = some (H[i].extractLsb' (24 - 8 * j.val) 8)

/-- R183: the host program HASH M -> var (WAIT, INIT, one ABSORB and WAIT for each byte in order, FINISH, WAIT, and the
eight digest reads), started in any state with BUSY = 0, runs without a fault to BUSY = 0, PHASE = DONE, ERR = 0, BUFCOUNT
= 0, LEN = 8 × |M|, and reads SHA256(M), in exactly 66 engine steps for each block, whatever the schedule. The spec's own inference,
marked so in R183. -/
def Obligations.TransactionComputesSha256 : Prop :=
  ∀ (M : List Byte) (var : String) (s : State), M.length ≤ 2 ^ 61 - 1 → s.seq = .ready → s.resetIn = false →
    s.host = (AsmOp.hash M var).expand →
    ∃ k t, run k s = .next t ∧ t.host = [] ∧ t.busy = false ∧ t.phase = .done ∧ t.err = .none ∧
      t.statusWord = 0x00000004#32 ∧ t.L.toNat = 8 * M.length ∧ t.H = sha256Words M ∧
      digestValue var t = some (sha256 M) ∧ (sha256 M).length = 32 ∧ engineSteps k s = 66 * blockCount M

/-- R181: in phase DONE each of the digest registers reads H, and no step but INIT's and a reset changes H, reads among
them; while BUSY = 1 a digest register reads a free value. -/
def Obligations.DigestIsKept : Prop :=
  (∀ s : State, Inv s → s.phase = .done →
    s.busy = false ∧ (∀ i : Fin 8, readReg (.digest i) s = s.H[i]) ∧
    ∀ t, step s = .next t → t.H = s.H ∨ s.resetIn = true ∨ s.host.head? = some (.write .w32 0x00 0x10000000#32)) ∧
  (∀ (s : State) (i : Fin 8), s.busy = true → readReg (.digest i) s = Config.freeWord s.draws)

/-! ### The register window (10_state.md R35 to R39, 20_memory.md) -/

/-- R36: the fields of STATUS, and that reading it changes nothing of the engine. -/
def Obligations.StatusWordLayout : Prop :=
  ∀ s : State,
    s.statusWord.getLsbD 0 = decide (s.seq ≠ .ready) ∧
    s.statusWord.extractLsb' 1 2 = (match s.phase with | .idle => 0#2 | .absorb => 1#2 | .done => 2#2 | .error => 3#2) ∧
    s.statusWord.getLsbD 3 = false ∧
    s.statusWord.extractLsb' 4 4 =
      (match s.err with | .none => 0#4 | .illegalCmd => 1#4 | .sequence => 2#4 | .lengthOverflow => 3#4) ∧
    (s.seq = .ready → s.statusWord.extractLsb' 8 6 = BitVec.ofNat 6 s.n) ∧
    (s.seq ≠ .ready → s.statusWord.extractLsb' 8 6 = Config.freeCount s.draws) ∧
    s.statusWord.extractLsb' 14 18 = 0#18 ∧
    ∀ x, getVar x (readInto 0x04 x s) = some s.statusWord ∧
      readInto 0x04 x s = { s with vars := (readInto 0x04 x s).vars, draws := (afterRead s).draws }

/-- R35 and R38 with R36, R37 and R39: what the host's 32-bit access to each offset of the window does. A read returns the
register's value and changes nothing of the engine; a write to CMD is a command; any other write has no effect. -/
def Obligations.RegisterWindowAccess : Prop :=
  ∀ (s : State) (off : Offset) (rest : List HostAction),
    s.resetIn = false → mover s = some .host → off.toNat % 4 = 0 →
    let p := { s with host := rest, turns := if s.busy then s.turns.tail else s.turns }
    (∀ x, s.host = .read .w32 off x :: rest →
      ∃ t, step s = .next t ∧
        getVar x t = some
          (if off = 0x04 then s.statusWord
           else if off = 0x08 then s.L.extractLsb' 0 32
           else if off = 0x0C then s.L.extractLsb' 32 32
           else if h : 0x10 ≤ off.toNat ∧ off.toNat < 0x30 then
             if s.busy then Config.freeWord s.draws else s.H[(off.toNat - 0x10) / 4]
           else 0x00000000#32) ∧
        (∀ y, y ≠ x → getVar y t = getVar y s) ∧
        t = { p with vars := t.vars, draws := if s.busy then s.draws + 1 else s.draws }) ∧
    (∀ v, s.host = .write .w32 off v :: rest → step s = if off = 0x00 then commandWrite v p else .next p)

/-- R55 with R6: with BASE_ADDR any multiple of 64, the host's access to BASE_ADDR + off is the access to offset off, and
the engine decodes no address outside its 64-byte window. -/
def Obligations.WindowDecoding : Prop :=
  ∀ base : Nat, base % 64 = 0 →
    (∀ (off : Offset) (w : Width) (var : String), memRead base (base + off.toNat) w var = some (.read w off var)) ∧
    (∀ (off : Offset) (w : Width) (v : Word), memWrite base (base + off.toNat) w v = some (.write w off v)) ∧
    (∀ (addr : Nat) (w : Width) (var : String) (v : Word), addr < base ∨ base + 64 ≤ addr →
      memRead base addr w var = none ∧ memWrite base addr w v = none)

/-- R41: what the host reads does not depend on a..h, W, buf, lenblk, final, or which engine step is next; while BUSY = 1
it does not depend on H or n either. -/
def Obligations.HiddenStateIsNotRead : Prop :=
  ∀ s s' : State, s.busy = s'.busy → s.phase = s'.phase → s.err = s'.err → s.L = s'.L → s.draws = s'.draws →
    (s.busy = false → s.H = s'.H ∧ s.n = s'.n) →
    ∀ r : WindowReg, readReg r s = readReg r s'

/-- R62 and R77: one pass of WAIT reads STATUS into s; it ends exactly when it reads BUSY = 0, and then the engine has
completed every step of the earlier commands, which is the spec's own inference, marked so in R62. It changes nothing but
the host's side (what it has pending, its variable s), the schedule and the draw counter. That one pass is one step is
DEDUCED (log 8). -/
def Obligations.WaitEndsExactlyWhenReady : Prop :=
  ∀ (s : State) (rest : List HostAction), s.resetIn = false → s.host = .wait :: rest → mover s = some .host →
    ∃ t v, step s = .next t ∧ getVar "s" t = some v ∧ v.getLsbD 0 = s.busy ∧
      (t.host = rest ↔ v.getLsbD 0 = false) ∧ (v.getLsbD 0 = true → t.host = s.host) ∧
      (v.getLsbD 0 = false → t.seq = .ready) ∧ v = s.statusWord ∧
      t = { s with host := t.host, vars := t.vars, turns := t.turns, draws := t.draws } ∧
      (∀ x, x ≠ "s" → getVar x t = getVar x s)

/-- R37 with R28: LEN_LO and LEN_HI read the halves of L at any time. That L changes only on an ABSORB that is accepted, by
8, and on INIT, to 0 (and on a reset) is the spec's own inference, marked so in R37. -/
def Obligations.LengthCounterWriters : Prop :=
  (∀ s : State, readReg .lenHi s ++ readReg .lenLo s = s.L) ∧
  ∀ s t : State, step s = .next t →
    t.L = s.L ∨
    (s.resetIn = true ∧ t.L = 0) ∨
    (s.seq = .ready ∧ s.host.head? = some (.write .w32 0x00 0x10000000#32) ∧ t.L = 0) ∨
    (s.seq = .ready ∧ s.phase = .absorb ∧ s.L.toNat ≠ 2 ^ 64 - 8 ∧ t.L = s.L + 8 ∧
      ∃ b : Byte, s.host.head? = some (.write .w32 0x00 (0x20000000#32 + b.setWidth 32)))

/-- R20: H is written only by INIT, with IV, and by FOLD, with the sums (and on a reset). -/
def Obligations.HashStateWriters : Prop :=
  ∀ s t : State, s.resetIn = false → step s = .next t →
    t.H = s.H ∨
    (s.seq = .ready ∧ s.host.head? = some (.write .w32 0x00 0x10000000#32) ∧ t.H = Rom.IV) ∨
    (s.seq = .fold ∧ mover s = some .engine ∧ t.H = foldedH s.H s.wv)

/-- R21 and R22: the constant tables meet their defining formulas, IV[i] = floor(sqrt(p × 2^64)) mod 2^32 and
K[t] = floor(cbrt(p × 2^96)) mod 2^32 over the primes in order, and the round constants are distinct. The values are from general knowledge
(log 11). -/
def Obligations.ConstantTables : Prop :=
  let primes := [2, 3, 5, 7, 11, 13, 17, 19, 23, 29, 31, 37, 41, 43, 47, 53, 59, 61, 67, 71, 73, 79, 83, 89, 97, 101,
    103, 107, 109, 113, 127, 131, 137, 139, 149, 151, 157, 163, 167, 173, 179, 181, 191, 193, 197, 199, 211, 223, 227,
    229, 233, 239, 241, 251, 257, 263, 269, 271, 277, 281, 283, 293, 307, 311]
  (∀ i : Fin 8, ∃ q < 5, (q * 2 ^ 32 + Rom.IV[i].toNat) ^ 2 ≤ primes.getD i 0 * 2 ^ 64 ∧
    primes.getD i 0 * 2 ^ 64 < (q * 2 ^ 32 + Rom.IV[i].toNat + 1) ^ 2) ∧
  (∀ t : Fin 64, ∃ q < 7, (q * 2 ^ 32 + Rom.K[t].toNat) ^ 3 ≤ primes.getD t 0 * 2 ^ 96 ∧
    primes.getD t 0 * 2 ^ 96 < (q * 2 ^ 32 + Rom.K[t].toNat + 1) ^ 3) ∧
  Rom.K.toList.Nodup

/-! ### The two agents (20_memory.md R61, 70_reset_and_hazards.md) -/

/-- R61: between two host accesses any number of engine steps may happen: for every m up to the end of the busy period
there is a schedule by which exactly m engine steps come before the host's next access. The schedule is the model's own
(log 3). -/
def Obligations.AnyNumberOfEngineStepsBetween : Prop :=
  ∀ (m : Nat) (s : State) (ts : List Agent), s.resetIn = false → s.host ≠ [] →
    s.turns = List.replicate m .engine ++ .host :: ts → (∀ j, j ≤ m → (engineStep^[j] s).busy = true) →
    ∃ t, run m s = .next t ∧ t = { engineStep^[m] s with turns := .host :: ts } ∧ mover t = some .host

/-- A host that makes supported accesses only, and writes CMD only where BUSY is known to be 0 (after WAIT, after a reset, or
after a CMD write that starts no compression: R226, in part the spec's own inference, marked so there), never meets a
fault or a refusal, whatever the schedule. The expansion of HASH is such a host program. That a CMD write may follow the
host's assertReset at once is the model's choice: the very next step is the reset (log 6). -/
def Obligations.DutifulHostIsSafe : Prop :=
  (∀ s : State, keepsDuties (!s.busy || s.resetIn) s.host = true → SafeFrom s) ∧
  (∀ (M : List Byte) (var : String) (idle : Bool), keepsDuties idle (AsmOp.hash M var).expand = true)

/-- R203: with BUSY = 0 and nothing pending, the engine takes no step and keeps all its state, for any number of steps of
the machine. -/
def Obligations.IdleMachineKeepsItsState : Prop :=
  ∀ (s : State) (k : Nat), s.resetIn = false → s.seq = .ready → s.host = [] →
    run k s = .next s ∧ engineSteps k s = 0

/-- R220: with the reset input asserted, the step is the reset, whatever is pending and whatever the engine is doing: the
control state takes its reset values, and STATUS and LEN read 0. That the step releases the input and keeps what the host
has pending and its variables, and that the host asserts the input by one action that does nothing else, with BUSY = 0 or
1, is the model's choice (log 6). -/
def Obligations.ResetTakesPrecedence : Prop :=
  (∀ s : State, s.resetIn = true →
    ∃ t, step s = .next t ∧ t.phase = .idle ∧ t.err = .none ∧ t.seq = .ready ∧ t.n = 0 ∧ t.L = 0 ∧ t.lenblk = false ∧
      t.final = false ∧ t.resetIn = false ∧ t.statusWord = 0x00000000#32 ∧ t.host = s.host ∧ t.vars = s.vars) ∧
  (∀ (s : State) (rest : List HostAction), s.resetIn = false → s.host = .assertReset :: rest → mover s = some .host →
    step s = .next { s with host := rest, turns := if s.busy then s.turns.tail else s.turns, resetIn := true })

/-- R222: a reset does not load IV: DIGESTi then reads an unspecified value, and ABSORB and FINISH raise SEQUENCE until
INIT, which loads it. -/
def Obligations.ResetLoadsNoHashState : Prop :=
  ∀ s t : State, s.resetIn = true → step s = .next t →
    (∀ i : Fin 8, readReg (.digest i) t = Config.freeWord (s.draws + i.val)) ∧
    (∀ b : Byte, exec (.absorb b) t = .next { t with err := .sequence, phase := .error }) ∧
    exec .finish t = .next { t with err := .sequence, phase := .error } ∧
    ∃ u, exec .init t = .next u ∧ u.H = Rom.IV

/-- R221: after reset the engine is idle, STATUS is 0x00000000, and it waits for the host's first command. -/
def Obligations.StateAfterReset : Prop :=
  State.reset.seq = .ready ∧ State.reset.phase = .idle ∧ State.reset.statusWord = 0x00000000#32 ∧
  State.reset.L = 0 ∧ State.reset.lenblk = false ∧ State.reset.final = false ∧
  step State.reset = .next State.reset

/-! ### The invariant -/

/-- The invariant holds right after reset. -/
def Obligations.ResetMeetsTheInvariant : Prop := Inv State.reset

/-- Every step keeps the invariant, from every state that meets it. (R27's count
does not hold in phase DONE: log 14.) -/
def Obligations.EveryStepKeepsTheInvariant : Prop :=
  ∀ s t : State, Inv s → step s = .next t → Inv t

/-! ### The host's notation (30_encoding.md R76, R77) -/

/-- R76: what each operation line stands for, and lines of text read as they are written. -/
def Obligations.AssemblerLines : Prop :=
  AsmOp.init.expand = [.write .w32 0x00 0x10000000#32] ∧
  (∀ b : Byte, (AsmOp.absorb b).expand = [.write .w32 0x00 (0x20000000#32 + b.setWidth 32)]) ∧
  AsmOp.finish.expand = [.write .w32 0x00 0x30000000#32] ∧
  (∀ (off : Offset) (v : Word), (AsmOp.wr off v).expand = [.write .w32 off v]) ∧
  (∀ (off : Offset) (x : String), (AsmOp.rd off x).expand = [.read .w32 off x]) ∧
  parseLine "INIT  ; 10000000".toList = some [.init] ∧ parseLine "ABSORB 0x61".toList = some [.absorb 0x61] ∧
  parseLine "ABSORB 97".toList = some [.absorb 0x61] ∧ parseLine "ABSORB 'a'".toList = some [.absorb 0x61] ∧
  parseLine "FINISH".toList = some [.finish] ∧
  parseLine "WR CMD, 0x50000000".toList = some [.wr 0x00 0x50000000#32] ∧
  parseLine "RD LEN_LO -> x".toList = some [.rd 0x08 "x"] ∧ parseLine "; a comment".toList = some []

/-- R77: the pseudo-instructions' expansions, the bytes d of READDIGEST (computed from d0 ... d7: the model's choice, log 20),
and lines of text read as they are written (log 13). -/
def Obligations.PseudoInstructionExpansions : Prop :=
  (∀ bs : List Byte, (AsmOp.absorbs bs).expand =
    (bs.map fun b => [HostAction.write .w32 0x00 (0x20000000#32 + b.setWidth 32), .wait]).flatten) ∧
  (∀ d : String, (AsmOp.readDigest d).expand =
    [.read .w32 0x10 (d ++ "0"), .read .w32 0x14 (d ++ "1"), .read .w32 0x18 (d ++ "2"), .read .w32 0x1C (d ++ "3"),
     .read .w32 0x20 (d ++ "4"), .read .w32 0x24 (d ++ "5"), .read .w32 0x28 (d ++ "6"), .read .w32 0x2C (d ++ "7")]) ∧
  (∀ (bs : List Byte) (d : String), (AsmOp.hash bs d).expand =
    AsmOp.wait.expand ++ AsmOp.init.expand ++ (AsmOp.absorbs bs).expand ++ AsmOp.finish.expand ++ AsmOp.wait.expand ++
      (AsmOp.readDigest d).expand) ∧
  (∀ (d : String) (ws : Vector Word 8) (s : State), (∀ i : Fin 8, getVar (digestVar d i) s = some ws[i]) →
    digestValue d s = some (digestBytes ws)) ∧
  parseLine "WAIT".toList = some [.wait] ∧
  parseLine "ABSORBS [0x61, 98, 'c']".toList = some [.absorbs [0x61, 0x62, 0x63]] ∧
  parseLine "READDIGEST -> d".toList = some [.readDigest "d"] ∧
  parseLine (("ABSORBS ".toList ++ [doubleQuote]) ++ "abc".toList ++ [doubleQuote]) = some [.absorbs [0x61, 0x62, 0x63]] ∧
  parseLine (("HASH ".toList ++ [doubleQuote]) ++ "abc".toList ++ [doubleQuote] ++ " -> d".toList) =
    some [.hash [0x61, 0x62, 0x63] "d"]
end

