-- ==== Sys2Proof/Laws/Decode.lean ====
section
/-! SUPPORT. The decoder and the encoder: the fields of an encoded word, and `decode_eq_ok`, which says all a decoded word
can be. -/

namespace Sys2Proof

theorem commandWord_op (op data) : opField (commandWord op data) = op := by
  apply BitVec.eq_of_getLsbD_eq; intro i hi
  simp [opField, commandWord, hi, show 28 + i < 32 by omega, BitVec.getLsbD_of_ge data (28 + i) (by omega)]
theorem commandWord_rsv (op data) : rsvField (commandWord op data) = 0 := by
  apply BitVec.eq_of_getLsbD_eq; intro i hi
  simp [rsvField, commandWord, hi, show 8 + i < 28 by omega]
theorem commandWord_data (op data) : dataField (commandWord op data) = data := by
  apply BitVec.eq_of_getLsbD_eq; intro i hi
  simp [dataField, commandWord, hi, show i < 28 by omega, show i < 32 by omega]

theorem commandWord_of_fields {w : Word} (h : rsvField w = 0) : commandWord (opField w) (dataField w) = w := by
  apply BitVec.eq_of_getLsbD_eq; intro i hi
  have hr : ∀ j, j < 20 → w.getLsbD (8 + j) = false := by
    intro j hj
    have := congrArg (fun v => BitVec.getLsbD v j) h
    simpa [rsvField, hj] using this
  simp only [commandWord, opField, dataField, BitVec.getLsbD_or, BitVec.getLsbD_shiftLeft, BitVec.getLsbD_setWidth, BitVec.getLsbD_extractLsb']
  by_cases h1 : i < 8
  · simp [h1, hi, show i < 28 by omega]
  · by_cases h2 : i < 28
    · have := hr (i - 8) (by omega)
      rw [show 8 + (i - 8) = i by omega] at this
      simp [h1, h2, this]
    · simp [hi, h1, h2, show i - 28 < 4 by omega, show i - 28 < 32 by omega, show 28 + (i - 28) = i by omega]

theorem opField_toNat {w : Word} {k : BitVec 4} : (opField w).toNat = k.toNat ↔ opField w = k :=
  ⟨BitVec.eq_of_toNat_eq, fun h => h ▸ rfl⟩

theorem decode_eq_ok {w i} : decode w = .ok i ↔ w = encode i := by
  constructor
  · intro h
    unfold decode withoutOperand at h
    split at h
    · rename_i h1
      have h1 : opField w = 1#4 := opField_toNat.mp h1
      split at h <;> (try split at h) <;> simp_all
      rename_i hr hd
      rw [← commandWord_of_fields hr, h1, hd, ← h]; rfl
    · rename_i h1
      have h1 : opField w = 2#4 := opField_toNat.mp h1
      split at h <;> simp_all
      rename_i hr
      rw [← h]; simp only [encode]
      rw [← h1, commandWord_of_fields hr]
    · rename_i h1
      have h1 : opField w = 3#4 := opField_toNat.mp h1
      split at h <;> (try split at h) <;> simp_all
      rename_i hr hd
      rw [← commandWord_of_fields hr, h1, hd, ← h]; rfl
    · simp at h
  · rintro rfl
    cases i <;> simp [decode, encode, commandWord_op, commandWord_rsv, commandWord_data, withoutOperand]

theorem encode_absorb (b : Byte) : encode (.absorb b) = 0x20000000#32 + b.setWidth 32 := by
  revert b; decide
theorem mask_absorb {w : Word} : w &&& 0xFFFFFF00#32 = 0x20000000#32 ↔ ∃ b : Byte, w = encode (.absorb b) := by
  constructor
  · intro h
    refine ⟨dataField w, ?_⟩
    have hb : ∀ i, i < 32 → (w &&& 0xFFFFFF00#32).getLsbD i = (0x20000000#32).getLsbD i := by intro i _; rw [h]
    have hr : rsvField w = 0 := by
      apply BitVec.eq_of_getLsbD_eq; intro i hi
      have := hb (8 + i) (by omega)
      rw [BitVec.getLsbD_and] at this
      simp only [rsvField, BitVec.getLsbD_extractLsb', hi]
      clear hb h
      interval_cases i <;> simp_all
    have ho : opField w = 2#4 := by
      apply BitVec.eq_of_getLsbD_eq; intro i hi
      have := hb (28 + i) (by omega)
      rw [BitVec.getLsbD_and] at this
      simp only [opField, BitVec.getLsbD_extractLsb', hi]
      clear hb h
      interval_cases i <;> simp_all
    rw [encode, ← ho, commandWord_of_fields hr]
  · rintro ⟨b, rfl⟩; revert b; decide
theorem legalWord_iff {w : Word} : legalWord w = true ↔ ∃ i, decode w = .ok i := by
  have h1 : ∀ v : Word, w &&& 0xFFFFFFFF#32 = v ↔ w = v := by
    intro v; rw [show (0xFFFFFFFF#32 : Word) = BitVec.allOnes 32 by decide, BitVec.and_allOnes]
  simp only [decode_eq_ok]
  simp only [legalWord, commandRows, List.any_cons, List.any_nil, Bool.or_false, Bool.or_eq_true, beq_iff_eq, h1]
  rw [mask_absorb]
  constructor
  · rintro (h | ⟨b, h⟩ | h)
    · exact ⟨.init, h⟩
    · exact ⟨.absorb b, h⟩
    · exact ⟨.finish, h⟩
  · rintro ⟨i, h⟩; cases i with
    | init => exact .inl h
    | absorb b => exact .inr (.inl ⟨b, h⟩)
    | finish => exact .inr (.inr h)

end Sys2Proof
end

