-- ==== Sys2Proof/Laws/State.lean ====
section
/-! SUPPORT. What each named operation does to each field of the state, one lemma a field, so that no later proof unfolds a
record update. -/

namespace Sys2Proof.Machine

section raiseError_fields
variable (c : ErrCode) (s : State)

@[simp] theorem raiseError_H : (raiseError c s).H = s.H := by unfold raiseError; split <;> rfl
@[simp] theorem raiseError_wv : (raiseError c s).wv = s.wv := by unfold raiseError; split <;> rfl
@[simp] theorem raiseError_W : (raiseError c s).W = s.W := by unfold raiseError; split <;> rfl
@[simp] theorem raiseError_buf : (raiseError c s).buf = s.buf := by unfold raiseError; split <;> rfl
@[simp] theorem raiseError_n : (raiseError c s).n = s.n := by unfold raiseError; split <;> rfl
@[simp] theorem raiseError_L : (raiseError c s).L = s.L := by unfold raiseError; split <;> rfl
@[simp] theorem raiseError_seq : (raiseError c s).seq = s.seq := by unfold raiseError; split <;> rfl
@[simp] theorem raiseError_lenblk : (raiseError c s).lenblk = s.lenblk := by unfold raiseError; split <;> rfl
@[simp] theorem raiseError_final : (raiseError c s).final = s.final := by unfold raiseError; split <;> rfl
@[simp] theorem raiseError_resetIn : (raiseError c s).resetIn = s.resetIn := by unfold raiseError; split <;> rfl
@[simp] theorem raiseError_host : (raiseError c s).host = s.host := by unfold raiseError; split <;> rfl
@[simp] theorem raiseError_vars : (raiseError c s).vars = s.vars := by unfold raiseError; split <;> rfl
@[simp] theorem raiseError_turns : (raiseError c s).turns = s.turns := by unfold raiseError; split <;> rfl
@[simp] theorem raiseError_draws : (raiseError c s).draws = s.draws := by unfold raiseError; split <;> rfl

end raiseError_fields

section startTransaction_fields
variable (s : State)

@[simp] theorem startTransaction_H : (startTransaction s).H = Rom.IV := rfl
@[simp] theorem startTransaction_wv : (startTransaction s).wv = s.wv := rfl
@[simp] theorem startTransaction_W : (startTransaction s).W = s.W := rfl
@[simp] theorem startTransaction_buf : (startTransaction s).buf = s.buf := rfl
@[simp] theorem startTransaction_n : (startTransaction s).n = 0 := rfl
@[simp] theorem startTransaction_L : (startTransaction s).L = 0 := rfl
@[simp] theorem startTransaction_phase : (startTransaction s).phase = .absorb := rfl
@[simp] theorem startTransaction_err : (startTransaction s).err = .none := rfl
@[simp] theorem startTransaction_seq : (startTransaction s).seq = s.seq := rfl
@[simp] theorem startTransaction_lenblk : (startTransaction s).lenblk = false := rfl
@[simp] theorem startTransaction_final : (startTransaction s).final = false := rfl
@[simp] theorem startTransaction_resetIn : (startTransaction s).resetIn = s.resetIn := rfl
@[simp] theorem startTransaction_host : (startTransaction s).host = s.host := rfl
@[simp] theorem startTransaction_vars : (startTransaction s).vars = s.vars := rfl
@[simp] theorem startTransaction_turns : (startTransaction s).turns = s.turns := rfl
@[simp] theorem startTransaction_draws : (startTransaction s).draws = s.draws := rfl

end startTransaction_fields

section hardwareReset_fields
variable (s : State)

@[simp] theorem hardwareReset_n : (hardwareReset s).n = 0 := rfl
@[simp] theorem hardwareReset_L : (hardwareReset s).L = 0 := rfl
@[simp] theorem hardwareReset_phase : (hardwareReset s).phase = .idle := rfl
@[simp] theorem hardwareReset_err : (hardwareReset s).err = .none := rfl
@[simp] theorem hardwareReset_seq : (hardwareReset s).seq = .ready := rfl
@[simp] theorem hardwareReset_lenblk : (hardwareReset s).lenblk = false := rfl
@[simp] theorem hardwareReset_final : (hardwareReset s).final = false := rfl
@[simp] theorem hardwareReset_resetIn : (hardwareReset s).resetIn = false := rfl
@[simp] theorem hardwareReset_host : (hardwareReset s).host = s.host := rfl
@[simp] theorem hardwareReset_vars : (hardwareReset s).vars = s.vars := rfl
@[simp] theorem hardwareReset_turns : (hardwareReset s).turns = s.turns := rfl
@[simp] theorem hardwareReset_draws : (hardwareReset s).draws = s.draws + 144 := rfl

end hardwareReset_fields

section absorbByte_fields
variable (b : Byte) (s : State)

@[simp] theorem absorbByte_H : (absorbByte b s).H = s.H := rfl
@[simp] theorem absorbByte_wv : (absorbByte b s).wv = s.wv := rfl
@[simp] theorem absorbByte_W : (absorbByte b s).W = s.W := rfl
@[simp] theorem absorbByte_buf : (absorbByte b s).buf = s.buf.setIfInBounds s.n b := rfl
@[simp] theorem absorbByte_n : (absorbByte b s).n = s.n + 1 := rfl
@[simp] theorem absorbByte_L : (absorbByte b s).L = s.L + 8 := rfl
@[simp] theorem absorbByte_phase : (absorbByte b s).phase = s.phase := rfl
@[simp] theorem absorbByte_err : (absorbByte b s).err = s.err := rfl
@[simp] theorem absorbByte_seq : (absorbByte b s).seq = if s.n + 1 = 64 then .load else s.seq := rfl
@[simp] theorem absorbByte_lenblk : (absorbByte b s).lenblk = s.lenblk := rfl
@[simp] theorem absorbByte_final : (absorbByte b s).final = s.final := rfl
@[simp] theorem absorbByte_resetIn : (absorbByte b s).resetIn = s.resetIn := rfl
@[simp] theorem absorbByte_host : (absorbByte b s).host = s.host := rfl
@[simp] theorem absorbByte_vars : (absorbByte b s).vars = s.vars := rfl
@[simp] theorem absorbByte_turns : (absorbByte b s).turns = s.turns := rfl
@[simp] theorem absorbByte_draws : (absorbByte b s).draws = s.draws := rfl

end absorbByte_fields

section padFinal_fields
variable (s : State)

@[simp] theorem padFinal_H : (padFinal s).H = s.H := by unfold padFinal; rfl
@[simp] theorem padFinal_wv : (padFinal s).wv = s.wv := by unfold padFinal; rfl
@[simp] theorem padFinal_W : (padFinal s).W = s.W := by unfold padFinal; rfl
@[simp] theorem padFinal_buf : (padFinal s).buf = paddedBuf s.L s.n s.buf := by unfold padFinal; rfl
@[simp] theorem padFinal_n : (padFinal s).n = s.n := by unfold padFinal; rfl
@[simp] theorem padFinal_L : (padFinal s).L = s.L := by unfold padFinal; rfl
@[simp] theorem padFinal_phase : (padFinal s).phase = s.phase := by unfold padFinal; rfl
@[simp] theorem padFinal_err : (padFinal s).err = s.err := by unfold padFinal; rfl
@[simp] theorem padFinal_seq : (padFinal s).seq = s.seq := by unfold padFinal; rfl
@[simp] theorem padFinal_lenblk : (padFinal s).lenblk = decide (lastRoomForLength < s.n) := by unfold padFinal; rfl
@[simp] theorem padFinal_final : (padFinal s).final = s.final := by unfold padFinal; rfl
@[simp] theorem padFinal_resetIn : (padFinal s).resetIn = s.resetIn := by unfold padFinal; rfl
@[simp] theorem padFinal_host : (padFinal s).host = s.host := by unfold padFinal; rfl
@[simp] theorem padFinal_vars : (padFinal s).vars = s.vars := by unfold padFinal; rfl
@[simp] theorem padFinal_turns : (padFinal s).turns = s.turns := by unfold padFinal; rfl
@[simp] theorem padFinal_draws : (padFinal s).draws = s.draws := by unfold padFinal; rfl

end padFinal_fields

section finishMessage_fields
variable (s : State)

@[simp] theorem finishMessage_H : (finishMessage s).H = s.H := by unfold finishMessage padFinal; rfl
@[simp] theorem finishMessage_wv : (finishMessage s).wv = s.wv := by unfold finishMessage padFinal; rfl
@[simp] theorem finishMessage_W : (finishMessage s).W = s.W := by unfold finishMessage padFinal; rfl
@[simp] theorem finishMessage_buf : (finishMessage s).buf = paddedBuf s.L s.n s.buf := by unfold finishMessage padFinal; rfl
@[simp] theorem finishMessage_n : (finishMessage s).n = s.n := by unfold finishMessage padFinal; rfl
@[simp] theorem finishMessage_L : (finishMessage s).L = s.L := by unfold finishMessage padFinal; rfl
@[simp] theorem finishMessage_phase : (finishMessage s).phase = s.phase := by unfold finishMessage padFinal; rfl
@[simp] theorem finishMessage_err : (finishMessage s).err = s.err := by unfold finishMessage padFinal; rfl
@[simp] theorem finishMessage_seq : (finishMessage s).seq = .load := by unfold finishMessage padFinal; rfl
@[simp] theorem finishMessage_lenblk : (finishMessage s).lenblk = decide (lastRoomForLength < s.n) := by unfold finishMessage padFinal; rfl
@[simp] theorem finishMessage_final : (finishMessage s).final = true := by unfold finishMessage padFinal; rfl
@[simp] theorem finishMessage_resetIn : (finishMessage s).resetIn = s.resetIn := by unfold finishMessage padFinal; rfl
@[simp] theorem finishMessage_host : (finishMessage s).host = s.host := by unfold finishMessage padFinal; rfl
@[simp] theorem finishMessage_vars : (finishMessage s).vars = s.vars := by unfold finishMessage padFinal; rfl
@[simp] theorem finishMessage_turns : (finishMessage s).turns = s.turns := by unfold finishMessage padFinal; rfl
@[simp] theorem finishMessage_draws : (finishMessage s).draws = s.draws := by unfold finishMessage padFinal; rfl

end finishMessage_fields

section lengthBlock_fields
variable (s : State)

@[simp] theorem lengthBlock_H : (lengthBlock s).H = s.H := by unfold lengthBlock; rfl
@[simp] theorem lengthBlock_wv : (lengthBlock s).wv = s.wv := by unfold lengthBlock; rfl
@[simp] theorem lengthBlock_W : (lengthBlock s).W = s.W := by unfold lengthBlock; rfl
@[simp] theorem lengthBlock_buf : (lengthBlock s).buf = lengthBlockBuf s.L := by unfold lengthBlock; rfl
@[simp] theorem lengthBlock_n : (lengthBlock s).n = s.n := by unfold lengthBlock; rfl
@[simp] theorem lengthBlock_L : (lengthBlock s).L = s.L := by unfold lengthBlock; rfl
@[simp] theorem lengthBlock_phase : (lengthBlock s).phase = s.phase := by unfold lengthBlock; rfl
@[simp] theorem lengthBlock_err : (lengthBlock s).err = s.err := by unfold lengthBlock; rfl
@[simp] theorem lengthBlock_seq : (lengthBlock s).seq = .load := by unfold lengthBlock; rfl
@[simp] theorem lengthBlock_lenblk : (lengthBlock s).lenblk = false := by unfold lengthBlock; rfl
@[simp] theorem lengthBlock_final : (lengthBlock s).final = s.final := by unfold lengthBlock; rfl
@[simp] theorem lengthBlock_resetIn : (lengthBlock s).resetIn = s.resetIn := by unfold lengthBlock; rfl
@[simp] theorem lengthBlock_host : (lengthBlock s).host = s.host := by unfold lengthBlock; rfl
@[simp] theorem lengthBlock_vars : (lengthBlock s).vars = s.vars := by unfold lengthBlock; rfl
@[simp] theorem lengthBlock_turns : (lengthBlock s).turns = s.turns := by unfold lengthBlock; rfl
@[simp] theorem lengthBlock_draws : (lengthBlock s).draws = s.draws := by unfold lengthBlock; rfl

end lengthBlock_fields

section loadStep_fields
variable (s : State)

@[simp] theorem loadStep_H : (loadStep s).H = s.H := by unfold loadStep; rfl
@[simp] theorem loadStep_wv : (loadStep s).wv = loadedVars s.H := by unfold loadStep; rfl
@[simp] theorem loadStep_W : (loadStep s).W = loadedW s.buf s.W := by unfold loadStep; rfl
@[simp] theorem loadStep_buf : (loadStep s).buf = s.buf := by unfold loadStep; rfl
@[simp] theorem loadStep_n : (loadStep s).n = 0 := by unfold loadStep; rfl
@[simp] theorem loadStep_L : (loadStep s).L = s.L := by unfold loadStep; rfl
@[simp] theorem loadStep_phase : (loadStep s).phase = s.phase := by unfold loadStep; rfl
@[simp] theorem loadStep_err : (loadStep s).err = s.err := by unfold loadStep; rfl
@[simp] theorem loadStep_seq : (loadStep s).seq = .round 0 := by unfold loadStep; rfl
@[simp] theorem loadStep_lenblk : (loadStep s).lenblk = s.lenblk := by unfold loadStep; rfl
@[simp] theorem loadStep_final : (loadStep s).final = s.final := by unfold loadStep; rfl
@[simp] theorem loadStep_resetIn : (loadStep s).resetIn = s.resetIn := by unfold loadStep; rfl
@[simp] theorem loadStep_host : (loadStep s).host = s.host := by unfold loadStep; rfl
@[simp] theorem loadStep_vars : (loadStep s).vars = s.vars := by unfold loadStep; rfl
@[simp] theorem loadStep_turns : (loadStep s).turns = s.turns := by unfold loadStep; rfl
@[simp] theorem loadStep_draws : (loadStep s).draws = s.draws := by unfold loadStep; rfl

end loadStep_fields

section roundStep_fields
variable (t : Fin 64) (s : State)

@[simp] theorem roundStep_H : (roundStep t s).H = s.H := rfl
@[simp] theorem roundStep_wv : (roundStep t s).wv = roundVars Rom.K[t] (expand t s.W)[t] s.wv := rfl
@[simp] theorem roundStep_W : (roundStep t s).W = expand t s.W := rfl
@[simp] theorem roundStep_buf : (roundStep t s).buf = s.buf := rfl
@[simp] theorem roundStep_n : (roundStep t s).n = s.n := rfl
@[simp] theorem roundStep_L : (roundStep t s).L = s.L := rfl
@[simp] theorem roundStep_phase : (roundStep t s).phase = s.phase := rfl
@[simp] theorem roundStep_err : (roundStep t s).err = s.err := rfl
@[simp] theorem roundStep_seq : (roundStep t s).seq = afterRound t := rfl
@[simp] theorem roundStep_lenblk : (roundStep t s).lenblk = s.lenblk := rfl
@[simp] theorem roundStep_final : (roundStep t s).final = s.final := rfl
@[simp] theorem roundStep_resetIn : (roundStep t s).resetIn = s.resetIn := rfl
@[simp] theorem roundStep_host : (roundStep t s).host = s.host := rfl
@[simp] theorem roundStep_vars : (roundStep t s).vars = s.vars := rfl
@[simp] theorem roundStep_turns : (roundStep t s).turns = s.turns := rfl
@[simp] theorem roundStep_draws : (roundStep t s).draws = s.draws := rfl

end roundStep_fields

section foldStep_fields
variable (s : State)

@[simp] theorem foldStep_H : (foldStep s).H = foldedH s.H s.wv := by
  cases hl : s.lenblk <;> cases hf : s.final <;> simp [foldStep, continueOrStop, lengthBlock, hl, hf]
@[simp] theorem foldStep_wv : (foldStep s).wv = s.wv := by
  cases hl : s.lenblk <;> cases hf : s.final <;> simp [foldStep, continueOrStop, lengthBlock, hl, hf]
@[simp] theorem foldStep_W : (foldStep s).W = s.W := by
  cases hl : s.lenblk <;> cases hf : s.final <;> simp [foldStep, continueOrStop, lengthBlock, hl, hf]
@[simp] theorem foldStep_n : (foldStep s).n = s.n := by
  cases hl : s.lenblk <;> cases hf : s.final <;> simp [foldStep, continueOrStop, lengthBlock, hl, hf]
@[simp] theorem foldStep_L : (foldStep s).L = s.L := by
  cases hl : s.lenblk <;> cases hf : s.final <;> simp [foldStep, continueOrStop, lengthBlock, hl, hf]
@[simp] theorem foldStep_phase : (foldStep s).phase = if s.lenblk = false ∧ s.final = true then .done else s.phase := by
  cases hl : s.lenblk <;> cases hf : s.final <;> simp [foldStep, continueOrStop, lengthBlock, hl, hf]
@[simp] theorem foldStep_err : (foldStep s).err = s.err := by
  cases hl : s.lenblk <;> cases hf : s.final <;> simp [foldStep, continueOrStop, lengthBlock, hl, hf]
@[simp] theorem foldStep_seq : (foldStep s).seq = if s.lenblk then .load else .ready := by
  cases hl : s.lenblk <;> cases hf : s.final <;> simp [foldStep, continueOrStop, lengthBlock, hl, hf]
@[simp] theorem foldStep_lenblk : (foldStep s).lenblk = false := by
  cases hl : s.lenblk <;> cases hf : s.final <;> simp [foldStep, continueOrStop, lengthBlock, hl, hf]
@[simp] theorem foldStep_final : (foldStep s).final = (s.final && s.lenblk) := by
  cases hl : s.lenblk <;> cases hf : s.final <;> simp [foldStep, continueOrStop, lengthBlock, hl, hf]
@[simp] theorem foldStep_resetIn : (foldStep s).resetIn = s.resetIn := by
  cases hl : s.lenblk <;> cases hf : s.final <;> simp [foldStep, continueOrStop, lengthBlock, hl, hf]
@[simp] theorem foldStep_host : (foldStep s).host = s.host := by
  cases hl : s.lenblk <;> cases hf : s.final <;> simp [foldStep, continueOrStop, lengthBlock, hl, hf]
@[simp] theorem foldStep_vars : (foldStep s).vars = s.vars := by
  cases hl : s.lenblk <;> cases hf : s.final <;> simp [foldStep, continueOrStop, lengthBlock, hl, hf]
@[simp] theorem foldStep_turns : (foldStep s).turns = s.turns := by
  cases hl : s.lenblk <;> cases hf : s.final <;> simp [foldStep, continueOrStop, lengthBlock, hl, hf]
@[simp] theorem foldStep_draws : (foldStep s).draws = s.draws := by
  cases hl : s.lenblk <;> cases hf : s.final <;> simp [foldStep, continueOrStop, lengthBlock, hl, hf]

end foldStep_fields

section setVar_fields
variable (x : String) (v : Word) (s : State)

@[simp] theorem setVar_H : (setVar x v s).H = s.H := rfl
@[simp] theorem setVar_wv : (setVar x v s).wv = s.wv := rfl
@[simp] theorem setVar_W : (setVar x v s).W = s.W := rfl
@[simp] theorem setVar_buf : (setVar x v s).buf = s.buf := rfl
@[simp] theorem setVar_n : (setVar x v s).n = s.n := rfl
@[simp] theorem setVar_L : (setVar x v s).L = s.L := rfl
@[simp] theorem setVar_phase : (setVar x v s).phase = s.phase := rfl
@[simp] theorem setVar_err : (setVar x v s).err = s.err := rfl
@[simp] theorem setVar_seq : (setVar x v s).seq = s.seq := rfl
@[simp] theorem setVar_lenblk : (setVar x v s).lenblk = s.lenblk := rfl
@[simp] theorem setVar_final : (setVar x v s).final = s.final := rfl
@[simp] theorem setVar_resetIn : (setVar x v s).resetIn = s.resetIn := rfl
@[simp] theorem setVar_host : (setVar x v s).host = s.host := rfl
@[simp] theorem setVar_turns : (setVar x v s).turns = s.turns := rfl
@[simp] theorem setVar_draws : (setVar x v s).draws = s.draws := rfl

end setVar_fields

section afterRead_fields
variable (s : State)

@[simp] theorem afterRead_H : (afterRead s).H = s.H := rfl
@[simp] theorem afterRead_wv : (afterRead s).wv = s.wv := rfl
@[simp] theorem afterRead_W : (afterRead s).W = s.W := rfl
@[simp] theorem afterRead_buf : (afterRead s).buf = s.buf := rfl
@[simp] theorem afterRead_n : (afterRead s).n = s.n := rfl
@[simp] theorem afterRead_L : (afterRead s).L = s.L := rfl
@[simp] theorem afterRead_phase : (afterRead s).phase = s.phase := rfl
@[simp] theorem afterRead_err : (afterRead s).err = s.err := rfl
@[simp] theorem afterRead_seq : (afterRead s).seq = s.seq := rfl
@[simp] theorem afterRead_lenblk : (afterRead s).lenblk = s.lenblk := rfl
@[simp] theorem afterRead_final : (afterRead s).final = s.final := rfl
@[simp] theorem afterRead_resetIn : (afterRead s).resetIn = s.resetIn := rfl
@[simp] theorem afterRead_host : (afterRead s).host = s.host := rfl
@[simp] theorem afterRead_vars : (afterRead s).vars = s.vars := rfl
@[simp] theorem afterRead_turns : (afterRead s).turns = s.turns := rfl
@[simp] theorem afterRead_draws : (afterRead s).draws = if s.busy then s.draws + 1 else s.draws := rfl

end afterRead_fields

section readInto_fields
variable (off : Offset) (x : String) (s : State)

@[simp] theorem readInto_H : (readInto off x s).H = s.H := rfl
@[simp] theorem readInto_wv : (readInto off x s).wv = s.wv := rfl
@[simp] theorem readInto_W : (readInto off x s).W = s.W := rfl
@[simp] theorem readInto_buf : (readInto off x s).buf = s.buf := rfl
@[simp] theorem readInto_n : (readInto off x s).n = s.n := rfl
@[simp] theorem readInto_L : (readInto off x s).L = s.L := rfl
@[simp] theorem readInto_phase : (readInto off x s).phase = s.phase := rfl
@[simp] theorem readInto_err : (readInto off x s).err = s.err := rfl
@[simp] theorem readInto_seq : (readInto off x s).seq = s.seq := rfl
@[simp] theorem readInto_lenblk : (readInto off x s).lenblk = s.lenblk := rfl
@[simp] theorem readInto_final : (readInto off x s).final = s.final := rfl
@[simp] theorem readInto_resetIn : (readInto off x s).resetIn = s.resetIn := rfl
@[simp] theorem readInto_host : (readInto off x s).host = s.host := rfl
@[simp] theorem readInto_turns : (readInto off x s).turns = s.turns := rfl
@[simp] theorem readInto_draws : (readInto off x s).draws = if s.busy then s.draws + 1 else s.draws := rfl

end readInto_fields

section takeTurn_fields
variable (s : State)

@[simp] theorem takeTurn_H : (takeTurn s).H = s.H := by unfold takeTurn; split <;> rfl
@[simp] theorem takeTurn_wv : (takeTurn s).wv = s.wv := by unfold takeTurn; split <;> rfl
@[simp] theorem takeTurn_W : (takeTurn s).W = s.W := by unfold takeTurn; split <;> rfl
@[simp] theorem takeTurn_buf : (takeTurn s).buf = s.buf := by unfold takeTurn; split <;> rfl
@[simp] theorem takeTurn_n : (takeTurn s).n = s.n := by unfold takeTurn; split <;> rfl
@[simp] theorem takeTurn_L : (takeTurn s).L = s.L := by unfold takeTurn; split <;> rfl
@[simp] theorem takeTurn_phase : (takeTurn s).phase = s.phase := by unfold takeTurn; split <;> rfl
@[simp] theorem takeTurn_err : (takeTurn s).err = s.err := by unfold takeTurn; split <;> rfl
@[simp] theorem takeTurn_seq : (takeTurn s).seq = s.seq := by unfold takeTurn; split <;> rfl
@[simp] theorem takeTurn_lenblk : (takeTurn s).lenblk = s.lenblk := by unfold takeTurn; split <;> rfl
@[simp] theorem takeTurn_final : (takeTurn s).final = s.final := by unfold takeTurn; split <;> rfl
@[simp] theorem takeTurn_resetIn : (takeTurn s).resetIn = s.resetIn := by unfold takeTurn; split <;> rfl
@[simp] theorem takeTurn_host : (takeTurn s).host = s.host := by unfold takeTurn; split <;> rfl
@[simp] theorem takeTurn_vars : (takeTurn s).vars = s.vars := by unfold takeTurn; split <;> rfl
@[simp] theorem takeTurn_draws : (takeTurn s).draws = s.draws := by unfold takeTurn; split <;> rfl

end takeTurn_fields

section pollStatus_fields
variable (s : State)

@[simp] theorem pollStatus_H : (pollStatus s).H = s.H := by
  unfold pollStatus; dsimp only; split <;> rfl
@[simp] theorem pollStatus_wv : (pollStatus s).wv = s.wv := by
  unfold pollStatus; dsimp only; split <;> rfl
@[simp] theorem pollStatus_W : (pollStatus s).W = s.W := by
  unfold pollStatus; dsimp only; split <;> rfl
@[simp] theorem pollStatus_buf : (pollStatus s).buf = s.buf := by
  unfold pollStatus; dsimp only; split <;> rfl
@[simp] theorem pollStatus_n : (pollStatus s).n = s.n := by
  unfold pollStatus; dsimp only; split <;> rfl
@[simp] theorem pollStatus_L : (pollStatus s).L = s.L := by
  unfold pollStatus; dsimp only; split <;> rfl
@[simp] theorem pollStatus_phase : (pollStatus s).phase = s.phase := by
  unfold pollStatus; dsimp only; split <;> rfl
@[simp] theorem pollStatus_err : (pollStatus s).err = s.err := by
  unfold pollStatus; dsimp only; split <;> rfl
@[simp] theorem pollStatus_seq : (pollStatus s).seq = s.seq := by
  unfold pollStatus; dsimp only; split <;> rfl
@[simp] theorem pollStatus_lenblk : (pollStatus s).lenblk = s.lenblk := by
  unfold pollStatus; dsimp only; split <;> rfl
@[simp] theorem pollStatus_final : (pollStatus s).final = s.final := by
  unfold pollStatus; dsimp only; split <;> rfl
@[simp] theorem pollStatus_resetIn : (pollStatus s).resetIn = s.resetIn := by
  unfold pollStatus; dsimp only; split <;> rfl
@[simp] theorem pollStatus_turns : (pollStatus s).turns = s.turns := by
  unfold pollStatus; dsimp only; split <;> rfl
@[simp] theorem pollStatus_draws : (pollStatus s).draws = if s.busy then s.draws + 1 else s.draws := by
  unfold pollStatus; dsimp only; split <;> rfl

end pollStatus_fields

end Sys2Proof.Machine
end

