-- ==== Sys2Proof/Laws/Step.lean ====
section
/-! SUPPORT. What each shared operation and one step of the machine can answer, once: `exec_next`, `commandWrite_next`,
`hostAction_next`, `step_next`. Later proofs cite these and unfold no step. -/

namespace Sys2Proof.Machine

/-! ### BUSY -/

theorem busy_eq (s : State) : s.busy = decide (s.seq ≠ .ready) := by
  unfold State.busy; cases s.seq <;> simp

theorem busy_eq_false {s : State} : s.busy = false ↔ s.seq = .ready := by simp [busy_eq]

theorem busy_eq_true {s : State} : s.busy = true ↔ s.seq ≠ .ready := by simp [busy_eq]

/-- BUSY depends on the sequencer alone. -/
theorem busy_congr {s t : State} (h : t.seq = s.seq) : t.busy = s.busy := by simp [busy_eq, h]

/-! ### Who moves -/

theorem mover_none {s : State} : mover s = none ↔ s.busy = false ∧ s.host = [] := by
  unfold mover; split <;> simp_all

theorem mover_host {s : State} :
    mover s = some .host ↔ s.host ≠ [] ∧ (s.busy = true → s.turns.head? = some .host) := by
  unfold mover
  split <;> simp_all
  cases s.turns <;> simp

theorem mover_engine {s : State} :
    mover s = some .engine ↔ s.busy = true ∧ (s.host = [] ∨ s.turns = [] ∨ s.turns.head? = some .engine) := by
  unfold mover
  split <;> simp_all
  cases s.turns <;> simp

theorem takeTurn_turns (s : State) :
    (takeTurn s).turns = if s.busy = true ∧ s.host ≠ [] then s.turns.tail else s.turns := by
  unfold takeTurn; split <;> rfl

@[simp] theorem takeTurn_busy (s : State) : (takeTurn s).busy = s.busy := busy_congr (by simp)

/-- The state at which the host's action runs: the action is taken off the pending ones, and the schedule's entry where it
decided. -/
theorem takeTurn_host_eq {s : State} {a : HostAction} {as : List HostAction} (h : s.host = a :: as) :
    { takeTurn s with host := as } =
      { s with host := as, turns := if s.busy then s.turns.tail else s.turns } := by
  unfold takeTurn
  cases hb : s.busy <;> simp [h]

/-! ### The guards and the commands -/

theorem whenReady_of_ready {s : State} (h : s.seq = .ready) (act) : whenReady s act = act s := by
  simp [whenReady, busy_eq_false.mpr h]

theorem whenReady_of_busy {s : State} (h : s.busy = true) (act) : whenReady s act = .fault .cmdWhileBusy := by
  simp [whenReady, h]

theorem whenAbsorbing_of {s : State} (h : s.seq = .ready) (hp : s.phase = .absorb) (act) :
    whenAbsorbing s act = act s := by
  simp [whenAbsorbing, whenReady_of_ready h, hp]

theorem raiseError_eq (c : ErrCode) (s : State) :
    raiseError c s = if s.phase = .error then s else { s with err := c, phase := .error } := by
  unfold raiseError; split <;> simp_all

theorem maxLength_toNat {s : State} : s.L = maxLength ↔ s.L.toNat = 2 ^ 64 - 8 :=
  ⟨fun h => by rw [h]; rfl, fun h => BitVec.eq_of_toNat_eq (by rw [h]; rfl)⟩

theorem exec_busy {s : State} (h : s.busy = true) (i : Instr) : exec i s = .fault .cmdWhileBusy := by
  cases i <;> simp [exec, execInit, execAbsorb, execFinish, whenAbsorbing, whenReady_of_busy h]

theorem exec_init {s : State} (h : s.seq = .ready) : exec .init s = .next (startTransaction s) := by
  rw [exec, execInit, whenReady_of_ready h]

theorem exec_sequence {s : State} (h : s.seq = .ready) (hp : s.phase ≠ .absorb) {i : Instr} (hi : i ≠ .init) :
    exec i s = .next (raiseError .sequence s) := by
  cases i <;> simp_all [exec, execAbsorb, execFinish, whenAbsorbing, whenReady_of_ready h]

theorem exec_absorb {s : State} (h : s.seq = .ready) (hp : s.phase = .absorb) (hL : s.L ≠ maxLength) (b : Byte) :
    exec (.absorb b) s = .next (absorbByte b s) := by
  simp [exec, execAbsorb, whenAbsorbing_of h hp, hL]

theorem exec_absorb_overflow {s : State} (h : s.seq = .ready) (hp : s.phase = .absorb) (hL : s.L = maxLength)
    (b : Byte) : exec (.absorb b) s = .next (raiseError .lengthOverflow s) := by
  simp [exec, execAbsorb, whenAbsorbing_of h hp, hL]

theorem exec_finish {s : State} (h : s.seq = .ready) (hp : s.phase = .absorb) :
    exec .finish s = .next (finishMessage s) := by
  rw [exec, execFinish, whenAbsorbing_of h hp]

/-- All that a command can answer as a next state. -/
theorem exec_next {i : Instr} {s t : State} (h : exec i s = .next t) :
    s.seq = .ready ∧
    ((i = .init ∧ t = startTransaction s) ∨
     (i ≠ .init ∧ s.phase ≠ .absorb ∧ t = raiseError .sequence s) ∨
     (∃ b, i = .absorb b ∧ s.phase = .absorb ∧ s.L = maxLength ∧ t = raiseError .lengthOverflow s) ∨
     (∃ b, i = .absorb b ∧ s.phase = .absorb ∧ s.L ≠ maxLength ∧ t = absorbByte b s) ∨
     (i = .finish ∧ s.phase = .absorb ∧ t = finishMessage s)) := by
  have hr : s.seq = .ready := by
    by_contra hb
    rw [exec_busy (busy_eq_true.mpr hb)] at h
    cases h
  refine ⟨hr, ?_⟩
  by_cases hi : i = .init
  · subst hi; rw [exec_init hr] at h; cases h; exact .inl ⟨rfl, rfl⟩
  by_cases hp : s.phase = .absorb
  · cases i with
    | init => exact absurd rfl hi
    | absorb b =>
      by_cases hL : s.L = maxLength
      · rw [exec_absorb_overflow hr hp hL] at h; cases h; exact .inr (.inr (.inl ⟨b, rfl, hp, hL, rfl⟩))
      · rw [exec_absorb hr hp hL] at h; cases h; exact .inr (.inr (.inr (.inl ⟨b, rfl, hp, hL, rfl⟩)))
    | finish => rw [exec_finish hr hp] at h; cases h; exact .inr (.inr (.inr (.inr ⟨rfl, hp, rfl⟩)))
  · rw [exec_sequence hr hp hi] at h; cases h; exact .inr (.inl ⟨hi, hp, rfl⟩)

theorem commandWrite_busy {s : State} (h : s.busy = true) (v : Word) : commandWrite v s = .fault .cmdWhileBusy :=
  whenReady_of_busy h _

theorem commandWrite_legal {s : State} {v : Word} {i : Instr} (h : decode v = .ok i) :
    commandWrite v s = exec i s := by
  cases hb : s.busy
  · rw [commandWrite, whenReady_of_ready (busy_eq_false.mp hb), h]
  · rw [commandWrite_busy hb, exec_busy hb]

theorem commandWrite_illegal {s : State} {v : Word} (hr : s.seq = .ready) (h : legalWord v = false) :
    commandWrite v s = .next (raiseError .illegalCmd s) := by
  rw [commandWrite, whenReady_of_ready hr]
  cases hd : decode v with
  | error e => rfl
  | ok i => rw [legalWord_iff.mpr ⟨i, hd⟩] at h; cases h

/-- All that a write to CMD can answer as a next state. -/
theorem commandWrite_next {v : Word} {s t : State} (h : commandWrite v s = .next t) :
    s.seq = .ready ∧
      ((legalWord v = false ∧ t = raiseError .illegalCmd s) ∨ ∃ i, v = encode i ∧ exec i s = .next t) := by
  have hr : s.seq = .ready := by
    by_contra hb
    rw [commandWrite_busy (busy_eq_true.mpr hb)] at h
    cases h
  refine ⟨hr, ?_⟩
  cases hl : legalWord v
  · rw [commandWrite_illegal hr hl] at h; cases h; exact .inl ⟨rfl, rfl⟩
  · obtain ⟨i, hi⟩ := legalWord_iff.mp hl
    rw [commandWrite_legal hi] at h
    exact .inr ⟨i, decode_eq_ok.mp hi, h⟩

/-! ### The host's actions -/

theorem supportedAccess_iff {w : Width} {off : Offset} :
    supportedAccess w off = true ↔ w = .w32 ∧ off.toNat % 4 = 0 := by
  simp [supportedAccess]

/-- Where CMD is: no aligned offset but 0x00. -/
theorem windowReg_cmd {off : Offset} (h : off.toNat % 4 = 0) : windowReg off = .cmd ↔ off = 0x00 := by
  revert h; revert off; decide

theorem busWrite_cmd (v : Word) (s : State) : busWrite 0x00 v s = commandWrite v s := rfl

theorem busWrite_other {off : Offset} (h : windowReg off ≠ .cmd) (v : Word) (s : State) : busWrite off v s = .next s := by
  unfold busWrite; split <;> simp_all

/-- All that a host action can answer as a next state. -/
theorem hostAction_next {a : HostAction} {s t : State} (h : hostAction a s = .next t) :
    (∃ off x, a = .read .w32 off x ∧ off.toNat % 4 = 0 ∧ t = readInto off x s) ∨
    (∃ off v, a = .write .w32 off v ∧ off.toNat % 4 = 0 ∧ off ≠ 0x00 ∧ t = s) ∨
    (∃ v, a = .write .w32 0x00 v ∧ commandWrite v s = .next t) ∨
    (a = .wait ∧ t = pollStatus s) ∨
    (a = .assertReset ∧ t = { s with resetIn := true }) := by
  cases a with
  | read w off x =>
    simp only [hostAction, whenSupported] at h
    split at h
    · rename_i hs; obtain ⟨rfl, ho⟩ := supportedAccess_iff.mp hs; cases h
      exact .inl ⟨off, x, rfl, ho, rfl⟩
    · cases h
  | write w off v =>
    simp only [hostAction, whenSupported] at h
    split at h
    · rename_i hs; obtain ⟨rfl, ho⟩ := supportedAccess_iff.mp hs
      by_cases hc : off = 0x00
      · subst hc; exact .inr (.inr (.inl ⟨v, rfl, h⟩))
      · rw [busWrite_other (fun hw => hc ((windowReg_cmd ho).mp hw))] at h; cases h
        exact .inr (.inl ⟨off, v, rfl, ho, hc, rfl⟩)
    · cases h
  | wait => cases h; exact .inr (.inr (.inr (.inl ⟨rfl, rfl⟩)))
  | assertReset => cases h; exact .inr (.inr (.inr (.inr ⟨rfl, rfl⟩)))

/-! ### One step -/

theorem step_reset {s : State} (h : s.resetIn = true) : step s = .next (hardwareReset s) := by
  simp [step, h]

theorem step_idle {s : State} (h : s.resetIn = false) (hr : s.seq = .ready) (hh : s.host = []) :
    step s = .next s := by
  simp [step, h, mover_none.mpr ⟨busy_eq_false.mpr hr, hh⟩]

theorem step_engine {s : State} (h : s.resetIn = false) (hm : mover s = some .engine) :
    step s = .next (engineStep (takeTurn s)) := by
  simp [step, h, hm]

theorem step_host {s : State} {a : HostAction} {as : List HostAction} (h : s.resetIn = false)
    (hm : mover s = some .host) (hh : s.host = a :: as) :
    step s = hostAction a { s with host := as, turns := if s.busy then s.turns.tail else s.turns } := by
  rw [← takeTurn_host_eq hh]
  simp only [step, h, hm, hostStep, takeTurn_host, hh]
  rfl

/-- A host that has something pending moves when the engine is idle. -/
theorem step_host_ready {s : State} {a : HostAction} {as : List HostAction} (h : s.resetIn = false)
    (hr : s.seq = .ready) (hh : s.host = a :: as) : step s = hostAction a { s with host := as } := by
  have hb := busy_eq_false.mpr hr
  rw [step_host h (mover_host.mpr ⟨by simp [hh], by simp [hb]⟩) hh, hb]
  rfl

/-- All that a step can answer as a next state. -/
theorem step_next {s t : State} (h : step s = .next t) :
    (s.resetIn = true ∧ t = hardwareReset s) ∨
    s.resetIn = false ∧
      ((s.seq = .ready ∧ s.host = [] ∧ t = s) ∨
       (s.seq ≠ .ready ∧ mover s = some .engine ∧ t = engineStep (takeTurn s)) ∨
       ∃ a as, mover s = some .host ∧ s.host = a :: as ∧
         hostAction a { s with host := as, turns := if s.busy then s.turns.tail else s.turns } = .next t) := by
  by_cases hr : s.resetIn = true
  · rw [step_reset hr] at h; cases h; exact .inl ⟨hr, rfl⟩
  · have hr : s.resetIn = false := by simpa using hr
    refine .inr ⟨hr, ?_⟩
    match hm : mover s with
    | none =>
      obtain ⟨hb, hh⟩ := mover_none.mp hm
      rw [step_idle hr (busy_eq_false.mp hb) hh] at h; cases h
      exact .inl ⟨busy_eq_false.mp hb, hh, rfl⟩
    | some .engine =>
      rw [step_engine hr hm] at h; cases h
      exact .inr (.inl ⟨busy_eq_true.mp (mover_engine.mp hm).1, rfl, rfl⟩)
    | some .host =>
      obtain ⟨a, as, hh⟩ := List.exists_cons_of_ne_nil (mover_host.mp hm).1
      rw [step_host hr hm hh] at h
      exact .inr (.inr ⟨a, as, rfl, hh, h⟩)

end Sys2Proof.Machine
end

