-- ==== Sys2Proof/Laws/Engine.lean ====
section
/-! SUPPORT. The engine's operations element by element (the padded buffer, the expander, the block's words), what one
engine step leaves alone, and what each step of a block does, said against the reference functions. -/

namespace Sys2Proof.Machine

open Sys2Proof.Reference

/-! ### Bytes, words and buffers -/

/-- be32 is concatenation. -/
theorem be32_eq (a b c d : Byte) : be32 a b c d = a ++ b ++ c ++ d := by
  apply BitVec.eq_of_getLsbD_eq; intro i hi
  show _ = BitVec.getLsbD (w := 8 + 8 + 8 + 8) _ i
  simp only [BitVec.getLsbD_append]
  simp only [be32, BitVec.getLsbD_or, BitVec.getLsbD_shiftLeft, BitVec.getLsbD_setWidth]
  by_cases h1 : i < 8
  · simp [h1, hi, show i < 24 by omega, show i < 16 by omega]
  by_cases h2 : i < 16
  · simp [h1, hi, h2, show i < 24 by omega, show i - 8 < 8 by omega, show i - 8 < 32 by omega]
    intro h; have := BitVec.lt_of_getLsbD h; omega
  by_cases h3 : i < 24
  · simp [h1, hi, h2, h3, show ¬ i - 8 < 8 by omega, show i - 16 < 32 by omega, show i - 8 < 32 by omega,
      show i - 8 - 8 = i - 16 by omega]
    rw [BitVec.getLsbD_of_ge d i (by omega), BitVec.getLsbD_of_ge c (i - 8) (by omega)]; simp; intros; omega
  · simp [h1, hi, h2, h3, show ¬ i - 8 < 8 by omega, show ¬ i - 8 - 8 < 8 by omega, show i - 16 < 32 by omega,
      show i - 8 < 32 by omega, show i - 24 < 32 by omega, show i - 8 - 8 - 8 = i - 24 by omega]
    rw [BitVec.getLsbD_of_ge d i (by omega), BitVec.getLsbD_of_ge c (i - 8) (by omega),
      BitVec.getLsbD_of_ge b (i - 16) (by omega)]; simp

theorem getElem_setIfInBounds (buf : Vector Byte 64) (n : Nat) (b : Byte) (j : Fin 64) :
    (buf.setIfInBounds n b)[j] = if j.val = n then b else buf[j] := by
  have := Vector.getElem_setIfInBounds (xs := buf) (i := n) (x := b) (j := j.val) j.isLt
  simp only [Fin.getElem_fin]; rw [this]; simp [eq_comm]

/-- The buffer PAD_FINAL leaves, byte by byte. -/
theorem paddedBuf_get (L : BitLength) (m : Nat) (buf : Vector Byte 64) (j : Fin 64) :
    (paddedBuf L m buf)[j] =
      if j.val < m then buf[j]
      else if j.val = m then 0x80#8
      else if m ≤ 55 ∧ 56 ≤ j.val then L.extractLsb' (56 - 8 * (j.val - 56)) 8
      else 0x00#8 := by
  simp only [paddedBuf, padMarker, lastRoomForLength, be64byte, Fin.getElem_fin, Vector.getElem_ofFn]; rfl

/-- The schedule after the expansion of word t, word by word. -/
theorem expand_get (t : Fin 64) (W : Vector Word 64) (j : Fin 64) :
    (expand t W)[j] = if 16 ≤ t.val ∧ j = t then expandedWord W t else W[j] := by
  unfold expand
  by_cases h : 16 ≤ t.val
  · simp only [h, if_true, true_and]
    by_cases hj : j = t
    · subst hj; simp
    · simp only [hj, if_false, Fin.getElem_fin]
      exact Vector.getElem_set_ne _ _ (fun hc => hj (Fin.ext hc.symm))
  · simp [h]

/-! ### What every engine step leaves alone -/

@[simp] theorem engineStep_host (s : State) : (engineStep s).host = s.host := by unfold engineStep; split <;> simp
@[simp] theorem engineStep_vars (s : State) : (engineStep s).vars = s.vars := by unfold engineStep; split <;> simp
@[simp] theorem engineStep_turns (s : State) : (engineStep s).turns = s.turns := by unfold engineStep; split <;> simp
@[simp] theorem engineStep_draws (s : State) : (engineStep s).draws = s.draws := by unfold engineStep; split <;> simp
@[simp] theorem engineStep_resetIn (s : State) : (engineStep s).resetIn = s.resetIn := by
  unfold engineStep; split <;> simp
@[simp] theorem engineStep_L (s : State) : (engineStep s).L = s.L := by unfold engineStep; split <;> simp
@[simp] theorem engineStep_err (s : State) : (engineStep s).err = s.err := by unfold engineStep; split <;> simp

/-- The engine part of `s` with the host's side, the schedule and the draw counter of `t`. -/
def beside (t s : State) : State := { s with host := t.host, vars := t.vars, turns := t.turns, draws := t.draws }

/-- An engine step does not see the host's side. -/
theorem engineStep_beside (t s : State) : engineStep (beside t s) = beside t (engineStep s) := by
  unfold engineStep beside
  match hq : s.seq with
  | .ready => simp [hq]
  | .load => simp only; rfl
  | .round r => simp only; rfl
  | .fold => simp only [foldStep, continueOrStop, lengthBlock]; cases hl : s.lenblk <;> cases hf : s.final <;> simp

/-! ### One block against the reference functions -/

theorem scheduleUpTo_getD (B : Vector Word 16) (t j : Nat) (h : j < t) :
    (scheduleUpTo B t).getD j 0 = schedule B (t - 1 - j) := by
  induction t generalizing j with
  | zero => omega
  | succ t ih =>
    cases j with
    | zero => simp [schedule]
    | succ j =>
      rw [scheduleUpTo]; simp only [List.getD_cons_succ]
      rw [ih j (by omega)]; congr 1; omega

theorem schedule_low (B : Vector Word 16) (t : Nat) (h : t < 16) : schedule B t = B[t] := by
  simp [schedule, scheduleUpTo, h]

theorem schedule_high (B : Vector Word 16) (t : Nat) (h : 16 ≤ t) : schedule B t =
    smallSigma1 (schedule B (t - 2)) + schedule B (t - 7) + smallSigma0 (schedule B (t - 15)) + schedule B (t - 16) := by
  conv_lhs => rw [schedule, scheduleUpTo]
  simp only [List.getD_cons_zero]
  rw [dif_neg (by omega), scheduleUpTo_getD _ _ _ (by omega), scheduleUpTo_getD _ _ _ (by omega),
    scheduleUpTo_getD _ _ _ (by omega), scheduleUpTo_getD _ _ _ (by omega)]
  rfl

theorem varsAfter_succ (H : Vector Word 8) (B : Vector Word 16) (t : Fin 64) :
    varsAfter H B (t.val + 1) = roundVars Rom.K[t] (schedule B t) (varsAfter H B t) := by
  have hk : Rom.K.toList.getD t.val 0 = Rom.K[t] := by simp [List.getD_eq_getElem?_getD]
  simp only [varsAfter, roundVars, roundT1, roundT2, hk]

/-- `s` is the state before ROUND(t), or before FOLD when t is 64, of the block that LOAD took in state `s0`. -/
structure InRounds (s0 s : State) (t : Nat) : Prop where
  /-- The words that later rounds read are the schedule's. -/
  sched : ∀ j, (h : j < 64) → j < 16 ∨ j < t → s.W[j] = schedule (blockWords s0.buf) j
  /-- t rounds are done. -/
  vars  : s.wv = varsAfter s0.H (blockWords s0.buf) t
  /-- Nothing else has changed but n and seq. -/
  rest  : s = { s0 with W := s.W, wv := s.wv, n := 0, seq := s.seq }

/-- LOAD begins the rounds. -/
theorem inRounds_load {s : State} (h : s.seq = .load) :
    InRounds s (engineStep s) 0 ∧ (engineStep s).seq = .round 0 := by
  have e : engineStep s = loadStep s := by simp [engineStep, h]
  rw [e]
  refine ⟨⟨?_, rfl, by simp only [loadStep]⟩, rfl⟩
  intro j hj hlt
  rw [schedule_low _ _ (by omega)]
  simp only [loadStep_W, loadedW, Vector.getElem_ofFn, blockWords]
  rw [dif_pos (by omega)]

/-- ROUND(t) does one round. -/
theorem inRounds_round {s0 s : State} {t : Fin 64} (hs : s.seq = .round t) (h : InRounds s0 s t.val) :
    InRounds s0 (engineStep s) (t.val + 1) ∧ (engineStep s).seq = afterRound t := by
  have e : engineStep s = roundStep t s := by simp [engineStep, hs]
  have hw : (expand t s.W)[t] = schedule (blockWords s0.buf) t := by
    rw [expand_get]
    by_cases h16 : 16 ≤ t.val
    · rw [if_pos ⟨h16, rfl⟩, expandedWord, schedule_high _ _ h16, h.sched (t.val - 2) (by omega) (by omega),
        h.sched (t.val - 7) (by omega) (by omega), h.sched (t.val - 15) (by omega) (by omega),
        h.sched (t.val - 16) (by omega) (by omega)]
    · rw [if_neg (by omega)]; exact h.sched t.val t.isLt (by omega)
  rw [e]
  refine ⟨⟨?_, ?_, ?_⟩, rfl⟩
  · intro j hj hlt
    rw [roundStep_W]
    by_cases hjt : j = t.val
    · subst hjt; exact hw
    · have := expand_get t s.W ⟨j, hj⟩
      simp only [Fin.getElem_fin] at this
      rw [this, if_neg (fun hc => hjt (congrArg Fin.val hc.2))]
      exact h.sched j hj (by omega)
  · rw [roundStep_wv, hw, h.vars, varsAfter_succ]
  · conv_lhs => rw [roundStep, h.rest]
    rfl

/-- FOLD, after the 64 rounds, adds compress's result. -/
theorem fold_of_inRounds {s u : State} (hi : InRounds s u 64) (hq : u.seq = .fold) :
    engineStep u = continueOrStop
      { s with H := compress s.H (blockWords s.buf), W := u.W, wv := u.wv, n := 0, seq := .fold } := by
  have : engineStep u = foldStep u := by simp [engineStep, hq]
  have hH : foldedH u.H u.wv = compress s.H (blockWords s.buf) := by
    rw [hi.vars, show u.H = s.H by rw [hi.rest]]; rfl
  rw [this, foldStep, hH]
  congr 1
  conv_lhs => rw [hi.rest, hq]

end Sys2Proof.Machine
end

