-- ==== Sys2Proof/Laws/PerInstr.lean ====
section
/-! SUPPORT. One statement for every command: the fields of its word (30_encoding.md R70 to R73). -/

namespace Sys2Proof.Laws.Encoding

/-- The OP value of a command (R71). -/
def opOf : Instr → BitVec 4
  | .init     => 0x1
  | .absorb _ => 0x2
  | .finish   => 0x3

/-- The DATA value of a command (R73). -/
def dataOf : Instr → BitVec 8
  | .init     => 0x00
  | .absorb b => b
  | .finish   => 0x00

/-- The word of the command has its OP and DATA, and RSV is 0. -/
def Statement (i : Instr) : Prop :=
  opField (encode i) = opOf i ∧ rsvField (encode i) = 0 ∧ dataField (encode i) = dataOf i

theorem init : Statement .init := ⟨commandWord_op _ _, commandWord_rsv _ _, commandWord_data _ _⟩
theorem absorb (b : Byte) : Statement (.absorb b) := ⟨commandWord_op _ _, commandWord_rsv _ _, commandWord_data _ _⟩
theorem finish : Statement .finish := ⟨commandWord_op _ _, commandWord_rsv _ _, commandWord_data _ _⟩

end Sys2Proof.Laws.Encoding
end

