-- ==== Sys2Proof/Laws/Registers.lean ====
section
/-! SUPPORT. The host's variables, the bits of STATUS, and one pass of WAIT. -/

namespace Sys2Proof.Machine

theorem getVar_setVar_same (x : String) (v : Word) (s : State) : getVar x (setVar x v s) = some v := by
  simp [getVar, setVar]

theorem getVar_setVar_ne {x y : String} {v : Word} {s : State} (h : y ≠ x) : getVar y (setVar x v s) = getVar y s := by
  simp only [getVar, setVar]
  rw [List.find?_cons_of_neg (by simpa using Ne.symm h)]
  congr 1
  rw [List.find?_filter]
  congr 1; funext p
  by_cases hp : p.1 = y <;> simp [hp, h]

/-- Bit i of STATUS, from the field it lies in. -/
theorem statusWord_getLsbD (s : State) (i : Nat) (hi : i < 32) : s.statusWord.getLsbD i =
    (((decide (8 ≤ i) && s.bufCountField.getLsbD (i - 8)) || (decide (4 ≤ i) && s.err.code.getLsbD (i - 4)) ||
      (decide (1 ≤ i) && s.phase.code.getLsbD (i - 1))) || (decide (i = 0) && s.busy)) := by
  simp only [State.statusWord, BitVec.getLsbD_or, BitVec.getLsbD_shiftLeft, BitVec.getLsbD_setWidth, hi,
    show ∀ k, i - k < 32 by intro k; omega]
  have h1 : ∀ k, (!decide (i < k)) = decide (k ≤ i) := by intro k; by_cases h : i < k <;> simp [h]; omega
  simp only [h1, decide_true, Bool.true_and, BitVec.getLsbD_ofBool]

theorem statusWord_busy (s : State) : s.statusWord.getLsbD 0 = s.busy := by
  rw [statusWord_getLsbD _ _ (by omega)]; simp

theorem statusWord_congr {s t : State} (h1 : s.seq = t.seq) (h2 : s.phase = t.phase) (h3 : s.err = t.err)
    (h4 : s.n = t.n) (h5 : s.draws = t.draws) : s.statusWord = t.statusWord := by
  simp [State.statusWord, State.bufCountField, busy_congr h1, h2, h3, h4, h5]

/-- One pass of WAIT stays at the loop exactly while BUSY = 1. -/
theorem pollStatus_host (p : State) : (pollStatus p).host = if p.busy then .wait :: p.host else p.host := by
  unfold pollStatus; simp only [readReg, statusWord_busy]; cases p.busy <;> simp

/-- All that one pass of WAIT writes. -/
theorem pollStatus_frame (p : State) :
    pollStatus p = { p with host := (pollStatus p).host, vars := (pollStatus p).vars, draws := (afterRead p).draws } := by
  unfold pollStatus; dsimp only; split <;> rfl

theorem pollStatus_getVar (p : State) (x : String) :
    getVar x (pollStatus p) = if x = "s" then some p.statusWord else getVar x p := by
  have key : getVar x (readInto statusOffset "s" p) = if x = "s" then some p.statusWord else getVar x p := by
    rw [readInto]
    by_cases h : x = "s"
    · subst h; rw [getVar_setVar_same, if_pos rfl]; rfl
    · rw [getVar_setVar_ne h, if_neg h]; rfl
  unfold pollStatus; dsimp only; split <;> exact key

end Sys2Proof.Machine
end

