-- ==== Sys2Proof/Laws/Run.lean ====
section
/-! SUPPORT. Runs: one step at a time, one run after another, and the engine on its own. -/

namespace Sys2Proof.Machine

theorem run_succ (k : Nat) (s : State) : run (k + 1) s =
    match step s with | .next t => run k t | .fault r => .fault r | .refused r => .refused r := by
  cases h : step s <;> simp [run, Host.Core.run, core, h]

theorem run_add (j k : Nat) (s t : State) (h : run j s = .next t) : run (j + k) s = run k t := by
  induction j generalizing s with
  | zero => rw [Nat.zero_add]; cases h; rfl
  | succ j ih =>
    rw [Nat.succ_add, run_succ]; rw [run_succ] at h
    split at h
    · rename_i u hu; exact ih u h
    · cases h
    · cases h

theorem engineSteps_succ (k : Nat) (s : State) : engineSteps (k + 1) s =
    (if engineMoves s then 1 else 0) +
      match step s with | .next t => engineSteps k t | .fault _ => 0 | .refused _ => 0 := rfl

theorem loadedBlocks_succ (k : Nat) (s : State) : loadedBlocks (k + 1) s =
    (if engineMoves s ∧ s.seq = .load then [s.buf] else []) ++
      match step s with | .next t => loadedBlocks k t | .fault _ => [] | .refused _ => [] := rfl

theorem takeTurn_nil {s : State} (h : s.host = []) : takeTurn s = s := by simp [takeTurn, h]

/-- With nothing pending at the host, a step is the engine's, or none. -/
theorem step_alone {s : State} (hr : s.resetIn = false) (hh : s.host = []) : step s = .next (engineStep s) := by
  by_cases hq : s.seq = .ready
  · rw [step_idle hr hq hh]; simp [engineStep, hq]
  · rw [step_engine hr (mover_engine.mpr ⟨busy_eq_true.mpr hq, .inl hh⟩), takeTurn_nil hh]

/-- With nothing pending at the host, k steps are k engine steps. -/
theorem run_alone {s : State} (hr : s.resetIn = false) (hh : s.host = []) (k : Nat) :
    run k s = .next (engineStep^[k] s) := by
  induction k generalizing s with
  | zero => rfl
  | succ k ih =>
    rw [run_succ, step_alone hr hh]
    show run k (engineStep s) = _
    rw [ih (by rw [engineStep_resetIn, hr]) (by rw [engineStep_host, hh]), Function.iterate_succ_apply]

/-- `s` runs to `t` in some number of steps, `e` of them the engine's, LOAD taking the blocks `bl`. -/
def Reaches (s t : State) (e : Nat) (bl : List (Vector Byte 64)) : Prop :=
  ∃ k, run k s = .next t ∧ engineSteps k s = e ∧ loadedBlocks k s = bl

theorem Reaches.refl (s : State) : Reaches s s 0 [] := ⟨0, rfl, rfl, rfl⟩

theorem reaches_step {s t u : State} {e : Nat} {bl : List (Vector Byte 64)} (h : step s = .next t)
    (hr : Reaches t u e bl) :
    Reaches s u ((if engineMoves s then 1 else 0) + e) ((if engineMoves s ∧ s.seq = .load then [s.buf] else []) ++ bl) := by
  obtain ⟨k, h1, h2, h3⟩ := hr
  exact ⟨k + 1, by rw [run_succ, h]; exact h1, by rw [engineSteps_succ, h, ← h2], by rw [loadedBlocks_succ, h, ← h3]⟩

theorem Reaches.trans {s t u : State} {e e' : Nat} {bl bl' : List (Vector Byte 64)} (h1 : Reaches s t e bl)
    (h2 : Reaches t u e' bl') : Reaches s u (e + e') (bl ++ bl') := by
  obtain ⟨k, h1, h3, h4⟩ := h1
  induction k generalizing s e bl with
  | zero => cases h1; cases h3; cases h4; simpa [engineSteps, loadedBlocks] using h2
  | succ k ih =>
    rw [run_succ] at h1; rw [engineSteps_succ] at h3; rw [loadedBlocks_succ] at h4
    cases hs : step s with
    | next v =>
      rw [hs] at h1 h3 h4
      have := reaches_step hs (ih h1 rfl rfl)
      rw [← h3, ← h4, Nat.add_assoc, List.append_assoc]; exact this
    | fault r => rw [hs] at h1; cases h1
    | refused r => rw [hs] at h1; cases h1

end Sys2Proof.Machine
end

