-- ==== Sys2Proof/Tests/Slice0.lean ====
section
/-! SUPPORT. Tests. The expected values are the worked examples of spec/ (the vector's number V<n> of 95_test_vectors.md, or
the rule, is named at each); the second part gives each statement's hypotheses a concrete state that meets them. -/

namespace Sys2Proof.Tests

open Sys2Proof.Machine Sys2Proof.Reference

/-! ### States to test on -/

/-- An engine with H = IV and 61 in every byte of the buffer, and a host with nothing pending. -/
def demo (ph : Phase) (q : Seq) (n : Nat) (L : BitLength) : State where
  H       := Rom.IV
  wv      := ⟨1, 2, 3, 4, 5, 6, 7, 8⟩
  W       := Vector.replicate 64 0
  buf     := Vector.replicate 64 0x61
  n       := n
  L       := L
  phase   := ph
  err     := if ph = .error then .sequence else .none
  seq     := q
  lenblk  := false
  final   := false
  resetIn := false
  host    := []
  vars    := []
  turns   := []
  draws   := 0

/-- The same with the host's pending actions. -/
def withHost (as : List HostAction) (s : State) : State := { s with host := as }

/-- A transaction with no byte absorbed. -/
def opened : State := demo .absorb .ready 0 0

/-- A transaction in which a block is about to be loaded. -/
def loading : State := demo .absorb .load 64 512

/-- A FINISH whose length block is still to come, about to be loaded. -/
def finishing : State := { demo .absorb .load 56 448 with lenblk := true, final := true }

/-- Field reads of an outcome. -/
def after {α : Type} (f : State → α) : Host.Outcome State Fault Refusal → Option α
  | .next t    => some (f t)
  | .fault _   => none
  | .refused _ => none

/-! ### The checks refuse what is ill formed (R72, R53) -/

theorem test_legal_refuses_op_zero : legalWord 0x00000000#32 = false := by decide
theorem test_legal_refuses_op_four : legalWord 0x40000000#32 = false := by decide
theorem test_legal_refuses_init_with_data : legalWord 0x10000001#32 = false := by decide
theorem test_legal_refuses_absorb_with_rsv : legalWord 0x20000161#32 = false := by decide
theorem test_legal_refuses_finish_with_rsv : legalWord 0x38000000#32 = false := by decide
theorem test_access_refuses_byte_width : supportedAccess .w8 0x04 = false := by decide
theorem test_access_refuses_misaligned : supportedAccess .w32 0x06 = false := by decide
theorem test_wf_last_byte : (Instr.absorb 0xff).wf = true := by decide

/-! ### Words written out from the encodings of R70 to R72 -/

theorem test_decode_init : decode 0b00010000000000000000000000000000#32 = .ok .init := by decide
theorem test_decode_absorb : decode 0b00100000000000000000000001100001#32 = .ok (.absorb 0x61) := by decide
theorem test_decode_finish : decode 0b00110000000000000000000000000000#32 = .ok .finish := by decide
theorem test_decode_op_zero : decode 0x00000061#32 = .error .illegalOp := by decide
theorem test_decode_reserved_bit : decode 0x28000061#32 = .error .reservedBitSet := by decide
theorem test_decode_init_data : decode 0x10000080#32 = .error .dataNotZero := by decide

/-! ### The commands -/

/-- V30: INIT from reset. -/
theorem test_init_status : after State.statusWord (exec .init State.reset) = some 0x00000002#32 := by decide
/-- V30: DIGEST0 after INIT. -/
theorem test_init_digest : after (readReg (.digest 0)) (exec .init State.reset) = some 0x6a09e667#32 := by decide
/-- V31: the third byte of "abc". -/
theorem test_absorb_status :
    after State.statusWord (exec (.absorb 0x63) (demo .absorb .ready 2 16)) = some 0x00000302#32 := by decide
/-- V31: the 64th byte starts the compression, and LEN_LO is 0x200. -/
theorem test_absorb_fills_block :
    after (fun t => (t.seq, t.n, t.L)) (exec (.absorb 0x61) (demo .absorb .ready 63 504)) =
      some (.load, 64, 0x200#64) := by decide
/-- V10: the layout of "abc" at FINISH, at the marker and at both ends of the length field. -/
theorem test_finish_layout :
    after (fun t => ([t.buf[2], t.buf[3], t.buf[4], t.buf[55], t.buf[56], t.buf[63]], t.lenblk))
      (exec .finish (demo .absorb .ready 3 24)) = some ([0x61, 0x80, 0, 0, 0, 0x18], false) := by decide
/-- V22: m = 56 leaves no room for the length. -/
theorem test_finish_no_room :
    after (fun t => ([t.buf[55], t.buf[56], t.buf[57], t.buf[63]], t.lenblk, t.seq))
      (exec .finish (demo .absorb .ready 56 448)) = some ([0x61, 0x80, 0, 0], true, .load) := by decide

/-! ### Errors -/

/-- V23: the longest message. -/
theorem test_length_overflow :
    after State.statusWord (exec (.absorb 0xff) (demo .absorb .ready 63 0xfffffffffffffff8)) = some 0x00003f36#32 := by
  decide
/-- R196: ABSORB before INIT. -/
theorem test_absorb_before_init : after State.statusWord (exec (.absorb 0x61) State.reset) = some 0x00000026#32 := by
  decide
/-- R194: an illegal word in phase IDLE. -/
theorem test_illegal_word : after State.statusWord (commandWrite 0x40000000#32 State.reset) = some 0x00000016#32 := by
  decide
/-- R227: INIT while BUSY = 1. -/
theorem test_init_while_busy : exec .init loading = .fault .cmdWhileBusy := by rfl

/-! ### The engine -/

/-- V2. -/
theorem test_rotr_shr : rotr 7 0x12345678 = 0xf02468ac#32 ∧ rotr 2 1 = 0x40000000#32 ∧ shr 3 0x12345678 = 0x02468acf#32 := by
  decide
/-- V3. -/
theorem test_small_sigma : smallSigma0 0x12345678 = 0xe7fce6ee#32 ∧ smallSigma1 0x12345678 = 0xa1f78649#32 := by decide
/-- V3. -/
theorem test_big_sigma : bigSigma0 0x12345678 = 0x66146474#32 ∧ bigSigma1 0x12345678 = 0x3561abda#32 := by decide
/-- V4. -/
theorem test_ch_maj : ch 0xffff0000 0xff00ff00 0xf0f0f0f0 = 0xff00f0f0#32 ∧
    maj 0xffff0000 0xff00ff00 0xf0f0f0f0 = 0xfff0f000#32 := by decide
/-- V6: round 0 of "abc", whose sums wrap. -/
theorem test_round_zero : roundVars Rom.K[0] 0x61626380#32 (loadedVars Rom.IV) =
    ⟨0x5d6aebcd, 0x6a09e667, 0xbb67ae85, 0x3c6ef372, 0xfa2a4622, 0x510e527f, 0x9b05688c, 0x1f83d9ab⟩ := by decide
/-- V14: round 63 of "abc". -/
theorem test_round_last : roundVars Rom.K[63] 0x12b1edeb#32
      ⟨0xd39a2165, 0x04d24d6c, 0xb85e2ce9, 0xb6ae8fff, 0xfb121210, 0x948d25b6, 0x961f4894, 0xb21bad3d⟩ =
    ⟨0x506e3058, 0xd39a2165, 0x04d24d6c, 0xb85e2ce9, 0x5ef50f24, 0xfb121210, 0x948d25b6, 0x961f4894⟩ := by decide
/-- V15: the FOLD of "abc". -/
theorem test_fold : foldedH Rom.IV
      ⟨0x506e3058, 0xd39a2165, 0x04d24d6c, 0xb85e2ce9, 0x5ef50f24, 0xfb121210, 0x948d25b6, 0x961f4894⟩ =
    #v[0xba7816bf, 0x8f01cfea, 0x414140de, 0x5dae2223, 0xb00361a3, 0x96177a9c, 0xb410ff61, 0xf20015ad] := by decide
/-- V11 and V12: LOAD takes big-endian words; here the buffer is all 61. -/
theorem test_load_word : (loadedW (Vector.replicate 64 0x61) (Vector.replicate 64 0))[15] = 0x61616161#32 ∧
    be32 0x61 0x62 0x63 0x80 = 0x61626380#32 := by decide
/-- V12: W[17] of "abc". -/
theorem test_expand : (expand 17 ((Vector.replicate 64 0).set 15 0x00000018#32))[17] = 0x000f0000#32 := by decide
/-- V16: the FOLD with lenblk = 1 prepares the length block. -/
theorem test_length_block :
    let t := engineStep { finishing with seq := .fold }
    t.seq = .load ∧ t.lenblk = false ∧ t.buf[0] = 0 ∧ t.buf[55] = 0 ∧ t.buf[62] = 0x01 ∧ t.buf[63] = 0xc0 := by decide

/-! ### Padding (V5) and the host's reads -/

theorem test_pad_count : [55, 56, 63, 64, 119].map padCount = [0, 63, 56, 55, 0] := by decide
theorem test_pad_length : (pad (List.replicate 56 0x61)).length = 128 := by simp [pad, padCount, be64bytes]
/-- R39: a reserved offset reads 0; R35: so does CMD. -/
theorem test_reads_zero : readReg (windowReg 0x3C) loading = 0 ∧ readReg (windowReg 0x00) opened = 0 := by decide
/-- R37. -/
theorem test_len_halves : readReg (windowReg 0x0C) (demo .absorb .ready 63 0xfffffffffffffff8) = 0xffffffff#32 ∧
    readReg (windowReg 0x08) (demo .absorb .ready 63 0xfffffffffffffff8) = 0xfffffff8#32 := by decide
/-- A wide access is refused. -/
theorem test_wide_access_refused : step (withHost [.read .w64 0x04 "x"] opened) = .refused .unsupportedAccess := by rfl
/-- A host program of R76 and R77. -/
theorem test_assemble : assemble ["INIT ; start".toList, "".toList, "ABSORB 'a'".toList, "WAIT".toList] =
    some [.write .w32 0x00 0x10000000, .write .w32 0x00 0x20000061, .wait] := by decide
/-- Log 13: a comma before the closing bracket adds no byte. -/
theorem test_trailing_comma : parseLine "ABSORBS [0x61, ]".toList = some [.absorbs [0x61]] := by decide
theorem test_assemble_refuses : parseLine "ABSORB 256".toList = none ∧ parseLine "MUL 1".toList = none := by decide


/-! ### The hypotheses of every statement are met

One theorem for each statement of Certificates/Slice0/Obligations.lean that has hypotheses, under the statement's name:
concrete states and operands that meet them, for each clause, at the edges of its range. -/

/-- A state with BUSY = 1 and a write to CMD pending at the host's turn. -/
def busyWriting (v : Word) : State := { withHost [.write .w32 0x00 v] loading with turns := [.host] }

theorem witness_DecodeAndEncodeAgree :
    (Instr.absorb 0x00).wf = true ∧ (Instr.absorb 0xff).wf = true ∧ decode 0x200000ff#32 = .ok (.absorb 0xff) := by decide

theorem witness_LegalWordsAreTheTableRows : opened.seq = .ready ∧ legalWord 0xffffffff#32 = false := by decide

theorem witness_StepRunsTheDecodedCommand :
    let s := withHost [.write .w32 0x00 0x10000000] opened
    (s.resetIn = false ∧ s.host = .write .w32 0x00 0x10000000 :: [] ∧ (s.busy = true → s.turns.head? = some .host)) ∧
    (let u := busyWriting 0x30000000
     u.resetIn = false ∧ u.host = .write .w32 0x00 0x30000000 :: [] ∧ u.busy = true ∧ u.turns.head? = some .host) ∧
    decode 0x10000000#32 = .ok .init ∧ decode 0x30000000#32 = .ok .finish := by decide

theorem witness_CommandDispatchInOrder :
    let s := withHost [.write .w32 0x00 0x20000061] (demo .done .ready 0 0)
    (s.resetIn = false ∧ s.host = .write .w32 0x00 0x20000061 :: [] ∧ (s.busy = true → s.turns.head? = some .host)) ∧
    (busyWriting 0).resetIn = false ∧ (busyWriting 0).turns.head? = some .host := by decide

theorem witness_InitStartsATransaction :
    (demo .idle .ready 0 0).seq = .ready ∧ (demo .error .ready 63 504).seq = .ready ∧ loading.seq ≠ .ready := by decide

theorem witness_AbsorbAppendsAByte :
    (let s := demo .absorb .ready 63 0xfffffffffffffff0
     s.seq = .ready ∧ s.phase = .absorb ∧ s.n ≤ 63 ∧ s.L.toNat ≠ 2 ^ 64 - 8) ∧
    (opened.seq = .ready ∧ opened.phase = .absorb ∧ opened.n ≤ 63 ∧ opened.L.toNat ≠ 2 ^ 64 - 8) ∧
    (let s := demo .absorb .ready 63 0xfffffffffffffff8
     s.seq = .ready ∧ s.phase = .absorb ∧ s.L.toNat = 2 ^ 64 - 8) ∧
    (State.reset.seq = .ready ∧ State.reset.phase ≠ .absorb) ∧ loading.seq ≠ .ready := by decide

theorem witness_FinishPadsTheBlock :
    (opened.seq = .ready ∧ opened.phase = .absorb ∧ opened.n ≤ 63) ∧
    (demo .absorb .ready 55 440).n ≤ 63 ∧ (demo .absorb .ready 56 448).n ≤ 63 ∧ (demo .absorb .ready 63 504).n ≤ 63 := by
  decide

theorem inv_demo_55 : Inv (demo .absorb .ready 55 440) := by constructor <;> decide
theorem inv_demo_56 : Inv (demo .absorb .ready 56 448) := by constructor <;> decide
theorem inv_demo_error : Inv (demo .error .ready 3 24) := by constructor <;> decide
theorem inv_demo_done : Inv (demo .done .ready 0 24) := by constructor <;> decide
theorem inv_finishing : Inv finishing := by constructor <;> decide

theorem witness_FinishRunsToDone :
    (let s := demo .absorb .ready 55 440
     Inv s ∧ s.seq = .ready ∧ s.phase = .absorb ∧ s.resetIn = false ∧ s.host = []) ∧
    (let s := demo .absorb .ready 56 448
     Inv s ∧ s.seq = .ready ∧ s.phase = .absorb ∧ s.resetIn = false ∧ s.host = []) ∧
    (State.reset.seq = .ready ∧ State.reset.phase ≠ .absorb) ∧ loading.seq ≠ .ready :=
  ⟨⟨inv_demo_55, by decide⟩, ⟨inv_demo_56, by decide⟩, by decide⟩

theorem witness_CommandsFrame :
    (∃ t, exec .init opened = .next t) ∧ (∃ t, exec (.absorb 0x61) opened = .next t) ∧
    (∃ t, exec .finish opened = .next t) ∧ (∃ t, exec .finish State.reset = .next t) ∧ State.reset.phase ≠ .absorb :=
  ⟨⟨_, rfl⟩, ⟨_, rfl⟩, ⟨_, rfl⟩, ⟨_, rfl⟩, by decide⟩

theorem witness_IllegalWordRecordsIllegalCmd :
    let s := withHost [.write .w32 0x00 0x20000100] opened
    s.resetIn = false ∧ s.host = .write .w32 0x00 0x20000100 :: [] ∧ s.seq = .ready ∧ legalWord 0x20000100#32 = false := by
  decide

theorem witness_FirstErrorIsKept : opened.phase ≠ .error ∧ (demo .error .ready 0 0).phase = .error := by decide

theorem witness_SequenceErrors :
    Instr.finish ≠ .init ∧ (demo .done .ready 0 24).seq = .ready ∧ (demo .done .ready 0 24).phase ≠ .absorb ∧
    (demo .error .ready 0 24).seq = .ready ∧ (demo .error .ready 0 24).phase ≠ .absorb := by decide

theorem witness_LengthOverflowRejectsTheByte :
    let s := demo .absorb .ready 63 0xfffffffffffffff8
    s.seq = .ready ∧ s.phase = .absorb ∧ s.L.toNat = 2 ^ 64 - 8 := by decide

theorem witness_EnteringAndLeavingError :
    (let s := withHost [.write .w32 0x00 0] opened
     s.phase ≠ .error ∧ ∃ t, step s = .next t ∧ t.phase = .error) ∧
    (Inv (demo .error .ready 3 24) ∧ (demo .error .ready 3 24).phase = .error ∧
     ∃ t, step (demo .error .ready 3 24) = .next t) :=
  ⟨⟨by decide, _, rfl, rfl⟩, inv_demo_error, rfl, _, rfl⟩

theorem witness_TransactionsStartAfresh :
    (opened.seq = .ready ∧ State.reset.seq = .ready) ∧
    ((demo .done .ready 0 24).seq = .ready ∧ (demo .done .ready 0 24).phase = .done ∧ Instr.finish ≠ .init) ∧
    (let s := withHost [.write .w32 0x00 0x10000000] State.reset
     s.phase ≠ .absorb ∧ ∃ t, step s = .next t ∧ t.phase = .absorb) :=
  ⟨by decide, by decide, by decide, _, rfl, rfl⟩

theorem witness_NoMessageIsAnError :
    (opened.seq = .ready ∧ opened.phase = .absorb ∧ opened.L.toNat ≠ 2 ^ 64 - 8) ∧
    (loading.resetIn = false ∧ mover loading = some .engine) := by decide

theorem witness_OnlyACommandWhileBusyFaults :
    loading.busy = true ∧ run 1 (busyWriting 0x10000000) = .fault .cmdWhileBusy := ⟨by decide, rfl⟩

theorem witness_EngineStepsExactlyWhenBusy :
    (loading.resetIn = false ∧ mover loading = some .engine) ∧
    (loading.seq ≠ .ready ∧ loading.host = [] ∧ loading.turns = []) ∧ opened.seq = .ready ∧ loading.seq = .load ∧
    (demo .absorb (.round 63) 0 512).seq = .round 63 ∧ (demo .absorb .fold 0 512).seq = .fold := by decide

theorem witness_LoadTakesTheBlock : loading.seq = .load := by decide

theorem witness_RoundStepResult :
    (demo .absorb (.round 0) 0 512).seq = .round 0 ∧ (demo .absorb (.round 15) 0 512).seq = .round 15 ∧
    (demo .absorb (.round 16) 0 512).seq = .round 16 ∧ (demo .absorb (.round 63) 0 512).seq = .round 63 := by decide

theorem witness_FoldStepResult :
    (let s := { finishing with seq := .fold }; s.seq = .fold ∧ s.lenblk = true) ∧
    (let s := { finishing with seq := .fold, lenblk := false }; s.seq = .fold ∧ s.lenblk = false ∧ s.final = true) ∧
    (let s := demo .absorb .fold 0 512; s.seq = .fold ∧ s.lenblk = false ∧ s.final = false) := by decide

theorem witness_BlockIterationOrder :
    (let s := { withHost [.wait] loading with turns := [.host] }
     s.resetIn = false ∧ s.busy = true ∧ mover s = some .host ∧ ∃ t, step s = .next t) ∧
    (loading.resetIn = false ∧ loading.seq = .load ∧ mover loading = some .engine ∧ ∃ t, step loading = .next t) ∧
    (let s := demo .absorb (.round 63) 0 512
     s.resetIn = false ∧ s.seq = .round 63 ∧ mover s = some .engine ∧ ∃ t, step s = .next t) ∧
    (let s := demo .absorb .fold 0 512
     s.resetIn = false ∧ s.seq = .fold ∧ mover s = some .engine ∧ ∃ t, step s = .next t) ∧
    (let s := withHost [.write .w32 0x00 0x20000061] (demo .absorb .ready 63 504)
     s.resetIn = false ∧ s.seq = .ready ∧ ∃ t, step s = .next t ∧ t.seq ≠ .ready) :=
  ⟨⟨rfl, rfl, rfl, _, rfl⟩, ⟨rfl, rfl, rfl, _, rfl⟩, ⟨rfl, rfl, rfl, _, rfl⟩, ⟨rfl, rfl, rfl, _, rfl⟩,
   rfl, rfl, _, rfl, by decide⟩

theorem witness_RotationAndShiftBits : (1 ≤ 1 ∧ 1 ≤ 31 ∧ 0 < 32) ∧ (1 ≤ 31 ∧ 31 ≤ 31 ∧ 31 < 32) := by decide
theorem witness_SigmaFunctionBits : 0 < 32 ∧ 31 < 32 := by decide
theorem witness_ChooseAndMajorityBits : 0 < 32 ∧ 31 < 32 := by decide

theorem witness_RoundsReadTheSchedule :
    (16 ≤ 16 ∧ 16 ≤ 63) ∧ (16 ≤ 63 ∧ 63 ≤ 63) ∧ (loading.seq = .load ∧ loading.resetIn = false ∧ loading.host = []) := by
  decide

theorem witness_OneBlockIsCompressed :
    (loading.seq = .load ∧ loading.resetIn = false ∧ loading.host = [] ∧ loading.lenblk = false) ∧
    (finishing.seq = .load ∧ finishing.resetIn = false ∧ finishing.host = [] ∧ finishing.lenblk = true) := by decide

theorem witness_BusyPeriodLength :
    (loading.seq = .load ∧ loading.resetIn = false ∧ loading.host = []) ∧ 0 < (if loading.lenblk then 132 else 66) ∧
    131 < (if finishing.lenblk then 132 else 66) := by decide

theorem witness_EveryBusyPeriodEnds : SafeFrom finishing ∧ finishing.busy = true :=
  ⟨fun k => ⟨_, run_alone rfl rfl k⟩, rfl⟩

theorem witness_NothingShowsWhileBusy : loading.busy = true ∧ (engineStep loading).busy = true := by decide

theorem witness_PaddingFunction :
    (let M : List Byte := [0x61, 0x62, 0x63]
     0 < M.length ∧ 2 < M.length ∧ M.length < 4 ∧ 4 ≤ M.length + padCount M.length ∧
     M.length < 55 ∧ 55 ≤ M.length + padCount M.length ∧ M.length + 9 ≤ 64 * 1 ∧ (M.length + 1 + 52 + 8) % 64 = 0 ∧
     M.length % 64 ≤ 55) ∧
    56 ≤ (List.replicate 56 (0x61 : Byte)).length % 64 := by decide

theorem witness_PaddingNeverReadsTheMessage :
    (demo .absorb .ready 3 24).n ≤ 3 ∧ 2 < (demo .absorb .ready 3 24).n ∧
    (∃ t, exec (.absorb 0x80) opened = .next t ∧ (0 : Fin 64).val = opened.n ∧ (1 : Fin 64).val ≠ opened.n) ∧
    (let s := demo .absorb .ready 63 0xfffffffffffffff8
     ∃ t, exec (.absorb 0x80) s = .next t ∧ (63 : Fin 64).val = s.n ∧ s.L.toNat = 2 ^ 64 - 8) :=
  ⟨by decide, by decide, ⟨_, rfl, by decide, by decide⟩, _, rfl, by decide, by decide⟩

theorem witness_LoadedBlocksAreThePaddedMessage :
    let M : List Byte := [0x61, 0x62, 0x63]
    let s := withHost (AsmOp.hash M "d").expand State.reset
    M.length ≤ 2 ^ 61 - 1 ∧ s.seq = .ready ∧ s.resetIn = false ∧ s.host = (AsmOp.hash M "d").expand :=
  ⟨by decide, rfl, rfl, rfl⟩

theorem witness_TransactionComputesSha256 :
    let s := withHost (AsmOp.hash [] "d").expand (demo .error .ready 5 40)
    ([] : List Byte).length ≤ 2 ^ 61 - 1 ∧ s.seq = .ready ∧ s.resetIn = false ∧ s.host = (AsmOp.hash [] "d").expand :=
  ⟨by decide, rfl, rfl, rfl⟩

theorem witness_DigestIsKept :
    (Inv (demo .done .ready 0 24) ∧ (demo .done .ready 0 24).phase = .done ∧
      ∃ t, step (demo .done .ready 0 24) = .next t) ∧ loading.busy = true :=
  ⟨⟨inv_demo_done, rfl, _, rfl⟩, rfl⟩

theorem witness_StatusWordLayout : opened.seq = .ready ∧ loading.seq ≠ .ready := by decide

theorem witness_RegisterWindowAccess :
    (∀ off ∈ ([0x00, 0x04, 0x08, 0x0C, 0x10, 0x2C, 0x30, 0x3C] : List Offset), off.toNat % 4 = 0 ∧
      let r := withHost [.read .w32 off "x"] opened
      let w := withHost [.write .w32 off 1] opened
      (r.resetIn = false ∧ mover r = some .host ∧ r.host = .read .w32 off "x" :: []) ∧
      (w.resetIn = false ∧ mover w = some .host ∧ w.host = .write .w32 off 1 :: [])) ∧
    (let s := { withHost [.read .w32 0x10 "x"] loading with turns := [.host] }
     s.resetIn = false ∧ mover s = some .host ∧ s.busy = true) := by decide

theorem witness_WindowDecoding : 64 % 64 = 0 ∧ (63 < 64 ∨ 64 + 64 ≤ 63) ∧ (128 < 64 ∨ 64 + 64 ≤ 128) := by decide

theorem witness_HiddenStateIsNotRead :
    let s := demo .absorb (.round 5) 0 512
    loading.busy = s.busy ∧ loading.phase = s.phase ∧ loading.err = s.err ∧ loading.L = s.L ∧ loading.draws = s.draws ∧
      (loading.busy = false → loading.H = s.H ∧ loading.n = s.n) := by decide

theorem witness_WaitEndsExactlyWhenReady :
    (let s := withHost [.wait] opened; s.resetIn = false ∧ s.host = .wait :: [] ∧ mover s = some .host) ∧
    (let s := { withHost [.wait] loading with turns := [.host] }
     s.resetIn = false ∧ s.host = .wait :: [] ∧ mover s = some .host) := by decide

theorem witness_LengthCounterWriters : ∃ t, step (withHost [.write .w32 0x00 0x20000061] opened) = .next t := ⟨_, rfl⟩

theorem witness_HashStateWriters :
    (∃ t, step (withHost [.write .w32 0x00 0x10000000] opened) = .next t) ∧
    (∃ t, step (demo .absorb .fold 0 512) = .next t) ∧ opened.resetIn = false := ⟨⟨_, rfl⟩, ⟨_, rfl⟩, rfl⟩

theorem witness_AnyNumberOfEngineStepsBetween :
    let s := { withHost [.wait] loading with turns := [.engine, .host] }
    s.resetIn = false ∧ s.host ≠ [] ∧ s.turns = List.replicate 1 .engine ++ .host :: [] ∧
      ∀ j, j ≤ 1 → (engineStep^[j] s).busy = true := by
  refine ⟨rfl, by decide, rfl, ?_⟩
  intro j hj
  interval_cases j <;> rfl

theorem witness_DutifulHostIsSafe :
    let s := withHost (AsmOp.hash [0x61] "d").expand State.reset
    keepsDuties (!s.busy || s.resetIn) s.host = true := by decide

theorem witness_IdleMachineKeepsItsState : State.reset.resetIn = false ∧ State.reset.seq = .ready ∧ State.reset.host = [] := by
  decide

theorem witness_ResetTakesPrecedence :
    ({ loading with resetIn := true } : State).resetIn = true ∧
    (let s := withHost [.assertReset] opened
     s.resetIn = false ∧ s.host = .assertReset :: [] ∧ mover s = some .host ∧ s.busy = false) ∧
    (let s := { withHost [.assertReset] loading with turns := [.host] }
     s.resetIn = false ∧ s.host = .assertReset :: [] ∧ mover s = some .host ∧ s.busy = true) := by decide

theorem witness_ResetLoadsNoHashState :
    let s := { loading with resetIn := true }
    s.resetIn = true ∧ ∃ t, step s = .next t := ⟨rfl, _, rfl⟩

theorem witness_EveryStepKeepsTheInvariant : Inv finishing ∧ ∃ t, step finishing = .next t := ⟨inv_finishing, _, rfl⟩

theorem witness_PseudoInstructionExpansions :
    let s := { opened with vars := [("d0", 0), ("d1", 1), ("d2", 2), ("d3", 3), ("d4", 4), ("d5", 5), ("d6", 6), ("d7", 7)] }
    ∀ i : Fin 8, getVar (digestVar "d" i) s = some (#v[0, 1, 2, 3, 4, 5, 6, 7] : Vector Word 8)[i] := by decide

end Sys2Proof.Tests
end

section
/-! SUPPORT. What a step writes to the engine: `step_effect` joins `step_next`, `hostAction_next`, `commandWrite_next` and
`exec_next` into one inversion, from which the statements about who writes what, and the invariant, are read off. -/

namespace Sys2Proof.Machine

/-- What a step from `s` to `t` does to the engine. -/
inductive StepEffect (s t : State) : Prop where
  /-- The reset, which takes precedence (R220). -/
  | reset (hr : s.resetIn = true) (ht : t = hardwareReset s)
  /-- The engine's own step (R140). -/
  | engine (hm : mover s = some .engine) (ht : t = engineStep (takeTurn s))
  /-- INIT (R101). -/
  | init (as : List HostAction) (hq : s.seq = .ready) (hh : s.host = .write .w32 0x00 (encode .init) :: as)
      (ht : t = startTransaction { s with host := as })
  /-- An accepted ABSORB (R102). -/
  | absorb (b : Byte) (as : List HostAction) (hq : s.seq = .ready) (hp : s.phase = .absorb) (hL : s.L ≠ maxLength)
      (hh : s.host = .write .w32 0x00 (encode (.absorb b)) :: as) (ht : t = absorbByte b { s with host := as })
  /-- An accepted FINISH (R103). -/
  | finish (as : List HostAction) (hq : s.seq = .ready) (hp : s.phase = .absorb)
      (hh : s.host = .write .w32 0x00 (encode .finish) :: as) (ht : t = finishMessage { s with host := as })
  /-- A CMD write that raises an error (R195). -/
  | raised (c : ErrCode) (as : List HostAction) (hc : c ≠ .none) (hq : s.seq = .ready)
      (ht : t = raiseError c { s with host := as })
  /-- Anything else: no more than the host's side, the schedule, the draw counter and the reset input change. -/
  | hostSide (ht : t = { s with host := t.host, vars := t.vars, turns := t.turns, draws := t.draws, resetIn := t.resetIn })

/-- What a write to CMD does, the host having issued it. -/
theorem commandWrite_effect {s t : State} {v : Word} {as : List HostAction} (hh : s.host = .write .w32 0x00 v :: as)
    (h : commandWrite v { s with host := as, turns := if s.busy then s.turns.tail else s.turns } = .next t) :
    StepEffect s t := by
  obtain ⟨hq, hcmd⟩ := commandWrite_next h
  have hq : s.seq = .ready := hq
  simp only [busy_eq_false.mpr hq] at hcmd
  obtain ⟨-, rfl⟩ | ⟨i, rfl, he⟩ := hcmd
  · exact .raised .illegalCmd as (by decide) hq rfl
  obtain ⟨-, ⟨rfl, rfl⟩ | ⟨-, -, rfl⟩ | ⟨b, rfl, -, -, rfl⟩ | ⟨b, rfl, hp, hL, rfl⟩ | ⟨rfl, hp, rfl⟩⟩ := exec_next he
  · exact .init as hq hh rfl
  · exact .raised .sequence as (by decide) hq rfl
  · exact .raised .lengthOverflow as (by decide) hq rfl
  · exact .absorb b as hq hp hL hh rfl
  · exact .finish as hq hp hh rfl

/-- All that a step can do to the engine. -/
theorem step_effect {s t : State} (h : step s = .next t) : StepEffect s t := by
  obtain ⟨hr, rfl⟩ | ⟨-, ⟨-, -, rfl⟩ | ⟨-, hm, rfl⟩ | ⟨a, as, -, hh, ha⟩⟩ := step_next h
  · exact .reset hr rfl
  · exact .hostSide rfl
  · exact .engine hm rfl
  obtain ⟨off, x, -, -, rfl⟩ | ⟨off, v, -, -, -, rfl⟩ | ⟨v, rfl, hc⟩ | ⟨-, rfl⟩ | ⟨-, rfl⟩ := hostAction_next ha
  · exact .hostSide rfl
  · exact .hostSide rfl
  · exact commandWrite_effect hh hc
  · exact .hostSide (by rw [pollStatus_frame])
  · exact .hostSide rfl

end Sys2Proof.Machine
end

section
/-! PROOFS. The invariant: each operation keeps it, so every step does. -/

namespace Sys2Proof.Machine

/-- The invariant is about the engine alone. -/
theorem Inv.of_hostSide {s t : State} (h : Inv s)
    (ht : t = { s with host := t.host, vars := t.vars, turns := t.turns, draws := t.draws, resetIn := t.resetIn }) :
    Inv t := by
  rw [ht]; exact { h with }

theorem inv_takeTurn {s : State} (h : Inv s) : Inv (takeTurn s) :=
  h.of_hostSide (by unfold takeTurn; split <;> rfl)

/-- With BUSY = 0 neither of FINISH's two flags stands. -/
theorem Inv.flags_of_ready {s : State} (h : Inv s) (hq : s.seq = .ready) : s.final = false ∧ s.lenblk = false := by
  have hf : s.final = false := by
    by_contra hf
    exact busy_eq_true.mp (h.finalBusy (by simpa using hf)) hq
  refine ⟨hf, ?_⟩
  by_contra hl
  simp [h.lenblkFinal (by simpa using hl)] at hf

theorem inv_afterReset (d : Nat) : Inv (State.afterReset d) := by
  constructor <;> simp [State.afterReset, busy_eq]

theorem inv_hardwareReset (s : State) : Inv (hardwareReset s) := (inv_afterReset s.draws).of_hostSide rfl

/-- INIT establishes the invariant, whatever the transaction before it has left. -/
theorem inv_startTransaction {s : State} (hq : s.seq = .ready) : Inv (startTransaction s) := by
  constructor <;> simp [busy_eq, hq, bytesAbsorbed]

theorem inv_raiseError {s : State} {c : ErrCode} (h : Inv s) (hc : c ≠ .none) (hq : s.seq = .ready) :
    Inv (raiseError c s) := by
  rw [raiseError_eq]
  split
  · exact h
  · exact { h with
      busyAbsorbs := by simp [busy_eq, hq]
      countAbsorb := by simp
      errPhase    := by simp [hc]
      idleEmpty   := by simp
      doneEmpty   := by simp }

/-- ABSORB below the limit adds 8 to L without wrapping round. -/
theorem Inv.toNat_L_add_eight {s : State} (h : Inv s) (hL : s.L ≠ maxLength) : (s.L + 8).toNat = s.L.toNat + 8 := by
  have hmax : s.L.toNat ≠ 2 ^ 64 - 8 := mt maxLength_toNat.mpr hL
  have hwhole := h.lengthWhole
  bv_omega

/-- Inside a transaction no error is recorded. -/
theorem Inv.err_of_absorb {s : State} (h : Inv s) (hp : s.phase = .absorb) : s.err = .none := by
  by_contra he
  simpa [hp] using h.errPhase.mp he

/-- ABSORB keeps the count: n reaches 64, and the block is started, exactly when the 64th byte of a block comes in. -/
theorem inv_absorbByte {s : State} (h : Inv s) (hq : s.seq = .ready) (hp : s.phase = .absorb) (hL : s.L ≠ maxLength)
    (b : Byte) : Inv (absorbByte b s) := by
  have hb := busy_eq_false.mpr hq
  obtain ⟨hf, hl⟩ := h.flags_of_ready hq
  have he := h.err_of_absorb hp
  have hwhole := h.lengthWhole
  have hL8 : (absorbByte b s).L.toNat = s.L.toNat + 8 := h.toNat_L_add_eight hL
  have hbytes : bytesAbsorbed (absorbByte b s) = bytesAbsorbed s + 1 := by unfold bytesAbsorbed; omega
  have hcount := h.countAbsorb hb hp
  by_cases hfull : s.n = 63
  · constructor
    case lengthWhole => omega
    case blockWhole => intros; omega
    all_goals simp [busy_eq, hp, he, hf, hl, hfull]
  · constructor
    case lengthWhole => omega
    case countReady => rw [absorbByte_n]; omega
    case countAbsorb => rw [absorbByte_n]; omega
    all_goals simp [busy_eq, hq, hp, he, hf, hl, hfull]

theorem inv_finishMessage {s : State} (h : Inv s) (hq : s.seq = .ready) (hp : s.phase = .absorb) :
    Inv (finishMessage s) := by
  have hn : s.n ≤ 64 ∧ s.n ≠ 64 := by have := h.countReady (busy_eq_false.mpr hq); omega
  constructor <;> simp [busy_eq, hp, h.err_of_absorb hp, h.lengthWhole, hn]

/-- A step inside a compression keeps the invariant when it goes on to a step that is no LOAD, with the buffer empty and
all the engine's control state but seq and n kept. -/
theorem Inv.of_compressing {s t : State} (h : Inv s) (hb : s.busy = true) (hq : t.seq ≠ .ready) (hq' : t.seq ≠ .load)
    (hn : t.n = 0) (hL : t.L = s.L) (hp : t.phase = s.phase) (he : t.err = s.err) (hl : t.lenblk = s.lenblk)
    (hf : t.final = s.final) : Inv t := by
  have hpa := h.busyAbsorbs hb
  constructor
  case blockWhole => intro _; rw [bytesAbsorbed, hf, hL]; exact h.blockWhole hb
  case lenblkFinal => rw [hl, hf]; exact h.lenblkFinal
  all_goals simp [busy_eq, hq, hq', hn, hp, hpa, he, h.err_of_absorb hpa, hL, h.lengthWhole]

theorem afterRound_ne (r : Fin 64) : afterRound r ≠ .ready ∧ afterRound r ≠ .load := by
  unfold afterRound; split <;> simp

theorem inv_loadStep {s : State} (h : Inv s) (hq : s.seq = .load) : Inv (loadStep s) :=
  h.of_compressing (busy_eq_true.mpr (by simp [hq])) (by simp) (by simp) rfl rfl rfl rfl rfl rfl

theorem inv_roundStep {s : State} {r : Fin 64} (h : Inv s) (hq : s.seq = .round r) : Inv (roundStep r s) := by
  have hb : s.busy = true := busy_eq_true.mpr (by simp [hq])
  exact h.of_compressing hb (afterRound_ne r).1 (afterRound_ne r).2 (h.countCompress hb (by simp [hq]))
    rfl rfl rfl rfl rfl

/-- FOLD goes on with the length block, ends the transaction, or goes back to absorbing at a multiple of 64 bytes. -/
theorem inv_foldStep {s : State} (h : Inv s) (hq : s.seq = .fold) : Inv (foldStep s) := by
  have hb : s.busy = true := busy_eq_true.mpr (by simp [hq])
  have hn : s.n = 0 := h.countCompress hb (by simp [hq])
  have hp := h.busyAbsorbs hb
  have he := h.err_of_absorb hp
  have hbytes : bytesAbsorbed (foldStep s) = bytesAbsorbed s := by simp [bytesAbsorbed]
  cases hl : s.lenblk with
  | true => constructor <;> simp [busy_eq, hl, h.lenblkFinal hl, hn, hp, he, h.lengthWhole]
  | false =>
    cases hf : s.final with
    | true => constructor <;> simp [busy_eq, hl, hf, hn, he, h.lengthWhole]
    | false => constructor <;> simp [busy_eq, hl, hf, hn, hp, he, hbytes, h.blockWhole hb hf, h.lengthWhole]

theorem inv_engineStep {s : State} (h : Inv s) : Inv (engineStep s) := by
  unfold engineStep
  split
  · exact h
  · exact inv_loadStep h ‹_›
  · exact inv_roundStep h ‹_›
  · exact inv_foldStep h ‹_›

/-- Settles O54: the state after reset meets the invariant whatever is drawn. -/
theorem resetMeetsTheInvariant : Obligations.ResetMeetsTheInvariant := inv_afterReset 0

/-- Settles O55, one case for each thing a step can do to the engine. -/
theorem everyStepKeepsTheInvariant : Obligations.EveryStepKeepsTheInvariant := by
  intro s t hi h
  have hi' (as : List HostAction) : Inv { s with host := as } := hi.of_hostSide rfl
  cases step_effect h with
  | reset _ ht => rw [ht]; exact inv_hardwareReset s
  | engine _ ht => rw [ht]; exact inv_engineStep (inv_takeTurn hi)
  | init as hq _ ht => rw [ht]; exact inv_startTransaction hq
  | absorb b as hq hp hL _ ht => rw [ht]; exact inv_absorbByte (hi' as) hq hp hL b
  | finish as hq hp _ ht => rw [ht]; exact inv_finishMessage (hi' as) hq hp
  | raised c as hc hq ht => rw [ht]; exact inv_raiseError (hi' as) hc hq
  | hostSide ht => exact hi.of_hostSide ht

end Sys2Proof.Machine
end

section
/-! PROOFS. Who writes H and L, read off `step_effect`. -/

namespace Sys2Proof.Machine

theorem encode_init : encode .init = 0x10000000#32 := rfl

/-- Only FOLD, among the engine's steps, writes H. -/
theorem engineStep_H (s : State) : (engineStep s).H = if s.seq = .fold then foldedH s.H s.wv else s.H := by
  unfold engineStep
  split <;> simp [*]

/-- LEN_HI and LEN_LO together are L. -/
theorem lenHi_append_lenLo (s : State) : readReg .lenHi s ++ readReg .lenLo s = s.L := by
  simp only [readReg]
  rw [BitVec.extractLsb'_append_extractLsb'_eq_extractLsb' (by rfl)]
  exact BitVec.extractLsb'_eq_self

/-- Settles O45: of the effects of a step, only a reset, INIT and an accepted ABSORB write L. -/
theorem lengthCounterWriters : Obligations.LengthCounterWriters := by
  refine ⟨lenHi_append_lenLo, fun s t h => ?_⟩
  cases step_effect h with
  | reset hr ht => exact .inr (.inl ⟨hr, by rw [ht, hardwareReset_L]⟩)
  | engine _ ht => exact .inl (by rw [ht, engineStep_L, takeTurn_L])
  | init as hq hh ht => exact .inr (.inr (.inl ⟨hq, by rw [hh, encode_init]; rfl, by rw [ht, startTransaction_L]⟩))
  | absorb b as hq hp hL hh ht =>
    exact .inr (.inr (.inr ⟨hq, hp, mt maxLength_toNat.mpr hL, by rw [ht, absorbByte_L],
      b, by rw [hh, encode_absorb]; rfl⟩))
  | finish _ _ _ _ ht => exact .inl (by rw [ht, finishMessage_L])
  | raised _ _ _ _ ht => exact .inl (by rw [ht, raiseError_L])
  | hostSide ht => exact .inl (by rw [ht])

/-- Settles O46: of the effects of a step without a reset, only INIT and the engine's FOLD write H. -/
theorem hashStateWriters : Obligations.HashStateWriters := by
  intro s t hr h
  cases step_effect h with
  | reset hr' _ => simp [hr] at hr'
  | engine hm ht =>
    rw [ht, engineStep_H, takeTurn_seq, takeTurn_H, takeTurn_wv]
    split
    · exact .inr (.inr ⟨‹_›, hm, rfl⟩)
    · exact .inl rfl
  | init as hq hh ht => exact .inr (.inl ⟨hq, by rw [hh, encode_init]; rfl, by rw [ht, startTransaction_H]⟩)
  | absorb _ _ _ _ _ _ ht => exact .inl (by rw [ht, absorbByte_H])
  | finish _ _ _ _ ht => exact .inl (by rw [ht, finishMessage_H])
  | raised _ _ _ _ ht => exact .inl (by rw [ht, raiseError_H])
  | hostSide ht => exact .inl (by rw [ht])

end Sys2Proof.Machine
end

section
/-! PROOFS. The register window: the fields of STATUS, what a read and a write at each offset do, and that no read shows the
hidden state. -/

namespace Sys2Proof.Machine

theorem statusWord_phase (s : State) : s.statusWord.extractLsb' 1 2 = s.phase.code := by
  apply BitVec.eq_of_getLsbD_eq; intro i hi
  rw [BitVec.getLsbD_extractLsb', statusWord_getLsbD _ _ (by omega)]
  simp [hi, show ¬ 8 ≤ 1 + i by omega, show ¬ 4 ≤ 1 + i by omega]

theorem statusWord_err (s : State) : s.statusWord.extractLsb' 4 4 = s.err.code := by
  apply BitVec.eq_of_getLsbD_eq; intro i hi
  have hphase := BitVec.getLsbD_of_ge s.phase.code (4 + i - 1) (by omega)
  rw [BitVec.getLsbD_extractLsb', statusWord_getLsbD _ _ (by omega), hphase]
  simp [hi, show ¬ 8 ≤ 4 + i by omega]

theorem statusWord_bufCount (s : State) : s.statusWord.extractLsb' 8 6 = s.bufCountField := by
  apply BitVec.eq_of_getLsbD_eq; intro i hi
  have hphase := BitVec.getLsbD_of_ge s.phase.code (8 + i - 1) (by omega)
  have herr := BitVec.getLsbD_of_ge s.err.code (8 + i - 4) (by omega)
  rw [BitVec.getLsbD_extractLsb', statusWord_getLsbD _ _ (by omega), hphase, herr]
  simp [hi]

theorem statusWord_upper (s : State) : s.statusWord.extractLsb' 14 18 = 0#18 := by
  apply BitVec.eq_of_getLsbD_eq; intro i hi
  have hphase := BitVec.getLsbD_of_ge s.phase.code (14 + i - 1) (by omega)
  have herr := BitVec.getLsbD_of_ge s.err.code (14 + i - 4) (by omega)
  have hcount := BitVec.getLsbD_of_ge s.bufCountField (14 + i - 8) (by omega)
  rw [BitVec.getLsbD_extractLsb', statusWord_getLsbD _ _ (by omega), hphase, herr, hcount]
  simp

theorem statusWord_bit3 (s : State) : s.statusWord.getLsbD 3 = false := by
  rw [statusWord_getLsbD _ _ (by omega)]
  simp

theorem bufCountField_of_ready {s : State} (h : s.seq = .ready) : s.bufCountField = BitVec.ofNat 6 s.n := by
  simp [State.bufCountField, busy_eq, h]

theorem bufCountField_of_busy {s : State} (h : s.seq ≠ .ready) : s.bufCountField = Config.freeCount s.draws := by
  simp [State.bufCountField, busy_eq, h]

theorem getVar_readInto_same (off : Offset) (x : String) (s : State) :
    getVar x (readInto off x s) = some (readReg (windowReg off) s) := getVar_setVar_same _ _ _

theorem getVar_readInto_ne {off : Offset} {x y : String} {s : State} (h : y ≠ x) :
    getVar y (readInto off x s) = getVar y s := getVar_setVar_ne h

/-- A read changes nothing of the engine: it gives the host variable its value and, while BUSY = 1, draws. -/
theorem readInto_frame (off : Offset) (x : String) (s : State) :
    readInto off x s = { s with vars := (readInto off x s).vars, draws := (afterRead s).draws } := rfl

/-- Settles O40, field by field. -/
theorem statusWordLayout : Obligations.StatusWordLayout := by
  intro s
  refine ⟨?_, ?_, statusWord_bit3 s, ?_, ?_, ?_, statusWord_upper s, fun x => ⟨?_, readInto_frame 0x04 x s⟩⟩
  · rw [statusWord_busy, busy_eq]
  · exact (statusWord_phase s).trans rfl
  · exact (statusWord_err s).trans rfl
  · intro h; rw [statusWord_bufCount, bufCountField_of_ready h]
  · intro h; rw [statusWord_bufCount, bufCountField_of_busy h]
  · exact getVar_readInto_same 0x04 x s

/-- The register map over the aligned offsets (R35). -/
theorem windowReg_aligned {off : Offset} (ho : off.toNat % 4 = 0) :
    (off = 0x00 ∧ windowReg off = .cmd) ∨ (off = 0x04 ∧ windowReg off = .status) ∨
    (off = 0x08 ∧ windowReg off = .lenLo) ∨ (off = 0x0C ∧ windowReg off = .lenHi) ∨
    (∃ i : Fin 8, off.toNat = 0x10 + 4 * i.val ∧ windowReg off = .digest i) ∨
    (0x30 ≤ off.toNat ∧ windowReg off = .reserved) := by
  revert ho; revert off; decide

/-- What each aligned offset of the window reads as (R35 to R38). -/
theorem readReg_windowReg (s : State) {off : Offset} (ho : off.toNat % 4 = 0) :
    readReg (windowReg off) s =
      (if off = 0x04 then s.statusWord
       else if off = 0x08 then s.L.extractLsb' 0 32
       else if off = 0x0C then s.L.extractLsb' 32 32
       else if h : 0x10 ≤ off.toNat ∧ off.toNat < 0x30 then
         if s.busy then Config.freeWord s.draws else s.H[(off.toNat - 0x10) / 4]
       else 0x00000000#32) := by
  have unnamed : 0x10 ≤ off.toNat → off ≠ 0x04 ∧ off ≠ 0x08 ∧ off ≠ 0x0C := by
    intro h; refine ⟨?_, ?_, ?_⟩ <;> bv_omega
  obtain ⟨rfl, hw⟩ | ⟨rfl, hw⟩ | ⟨rfl, hw⟩ | ⟨rfl, hw⟩ | ⟨i, hi, hw⟩ | ⟨hi, hw⟩ := windowReg_aligned ho
  · rfl
  · rfl
  · rfl
  · rfl
  · obtain ⟨h4, h8, hC⟩ := unnamed (by omega)
    have hidx : (off.toNat - 0x10) / 4 = i.val := by omega
    rw [hw, if_neg h4, if_neg h8, if_neg hC, dif_pos ⟨by omega, by omega⟩]
    simp only [readReg, hidx]; rfl
  · obtain ⟨h4, h8, hC⟩ := unnamed (by omega)
    rw [hw, if_neg h4, if_neg h8, if_neg hC, dif_neg (by omega)]
    rfl

/-- The host's supported write to an aligned offset (R35, R39). -/
theorem busWrite_aligned {off : Offset} (ho : off.toNat % 4 = 0) (v : Word) (s : State) :
    busWrite off v s = if off = 0x00 then commandWrite v s else .next s := by
  split
  · rename_i h0; rw [h0, busWrite_cmd]
  · rename_i h0; exact busWrite_other (mt (windowReg_cmd ho).mp h0) v s

theorem whenSupported_of {off : Offset} (ho : off.toNat % 4 = 0) (r : Host.Outcome State Fault Refusal) :
    whenSupported .w32 off r = r :=
  if_pos (supportedAccess_iff.mpr ⟨rfl, ho⟩)

/-- Settles O41, by the register map over the aligned offsets. -/
theorem registerWindowAccess : Obligations.RegisterWindowAccess := by
  intro s off rest hr hm ho p
  constructor
  · intro x hh
    refine ⟨readInto off x p, ?_, ?_, fun y hy => getVar_readInto_ne hy, readInto_frame off x p⟩
    · rw [step_host hr hm hh, hostAction, whenSupported_of ho]
    · rw [getVar_readInto_same, readReg_windowReg p ho]
      rfl
  · intro v hh
    rw [step_host hr hm hh, hostAction, whenSupported_of ho, busWrite_aligned ho]

/-- Settles O43: STATUS and DIGESTi are the two kinds of register whose value turns on BUSY. -/
theorem hiddenStateIsNotRead : Obligations.HiddenStateIsNotRead := by
  intro s s' hb hp he hL hd hready r
  have hcount : s.bufCountField = s'.bufCountField := by
    unfold State.bufCountField
    rw [← hb, hd]
    cases h : s.busy with
    | true => rfl
    | false => rw [(hready h).2]
  cases r with
  | cmd => rfl
  | status => simp only [readReg, State.statusWord, hb, hp, he, hcount]
  | lenLo => simp only [readReg, hL]
  | lenHi => simp only [readReg, hL]
  | digest i =>
    simp only [readReg, ← hb, hd]
    cases h : s.busy with
    | true => rfl
    | false => rw [(hready h).1]
  | reserved => rfl

end Sys2Proof.Machine
end

section
/-! PROOFS. The constant tables against their defining formulas. -/

namespace Sys2Proof.Machine

/-- Settles O47, by evaluating the closed tables. -/
theorem constantTables : Obligations.ConstantTables := by
  refine ⟨?_, ?_, ?_⟩
  · decide
  · decide
  · decide

end Sys2Proof.Machine
end

section
/-! PROOFS. The host's accesses: which of them a step refuses, what WAIT reads, and which addresses are the engine's. -/

namespace Sys2Proof.Machine

/-! ### Refusals -/

/-- A command ends in a next state or a fault, in every state. -/
theorem exec_ne_refused (i : Instr) (s : State) (r : Refusal) : exec i s ≠ .refused r := by
  by_cases hq : s.seq = .ready
  case neg => simp [exec_busy (busy_eq_true.mpr hq)]
  by_cases hi : i = .init
  · simp [hi, exec_init hq]
  by_cases hp : s.phase = .absorb
  case neg => simp [exec_sequence hq hp hi]
  cases i with
  | init => exact absurd rfl hi
  | absorb b =>
    by_cases hL : s.L = maxLength
    · simp [exec_absorb_overflow hq hp hL]
    · simp [exec_absorb hq hp hL]
  | finish => simp [exec_finish hq hp]

theorem commandWrite_ne_refused (v : Word) (s : State) (r : Refusal) : commandWrite v s ≠ .refused r := by
  by_cases hq : s.seq = .ready
  case neg => simp [commandWrite_busy (busy_eq_true.mpr hq)]
  cases hl : legalWord v with
  | false => simp [commandWrite_illegal hq hl]
  | true =>
    obtain ⟨i, hi⟩ := legalWord_iff.mp hl
    rw [commandWrite_legal hi]
    exact exec_ne_refused i s r

theorem busWrite_ne_refused (off : Offset) (v : Word) (s : State) (r : Refusal) : busWrite off v s ≠ .refused r := by
  by_cases hc : windowReg off = .cmd
  · simpa [busWrite, hc] using commandWrite_ne_refused v s r
  · simp [busWrite_other hc]

/-- An access that answers no refusal of its own is refused exactly when it is not supported (R53). -/
theorem whenSupported_refused {w : Width} {off : Offset} {o : Host.Outcome State Fault Refusal} {r : Refusal}
    (ho : o ≠ .refused r) :
    whenSupported w off o = .refused r ↔ r = .unsupportedAccess ∧ ¬(w = .w32 ∧ off.toNat % 4 = 0) := by
  rw [← supportedAccess_iff, whenSupported]
  cases supportedAccess w off with
  | true => simp [ho]
  | false => simp [eq_comm (a := r)]

/-- `a` reads or writes the window, and is not 32 bits wide or not aligned (R53). -/
def UnsupportedAccess (a : HostAction) : Prop :=
  ∃ (w : Width) (off : Offset), ¬(w = .w32 ∧ off.toNat % 4 = 0) ∧ ((∃ x, a = .read w off x) ∨ ∃ v, a = .write w off v)

theorem hostAction_refused {a : HostAction} {s : State} {r : Refusal} :
    hostAction a s = .refused r ↔ r = .unsupportedAccess ∧ UnsupportedAccess a := by
  cases a with
  | read w off x => rw [hostAction, whenSupported_refused (by simp)]; simp [UnsupportedAccess]
  | write w off v => rw [hostAction, whenSupported_refused (busWrite_ne_refused off v s r)]; simp [UnsupportedAccess]
  | wait => simp [hostAction, UnsupportedAccess]
  | assertReset => simp [hostAction, UnsupportedAccess]

/-- A step is refused exactly when it is the host's and its oldest pending action is an unsupported access. -/
theorem step_refused {s : State} {r : Refusal} :
    step s = .refused r ↔ r = .unsupportedAccess ∧ s.resetIn = false ∧ mover s = some .host ∧
      ∃ a, s.host.head? = some a ∧ UnsupportedAccess a := by
  cases hr : s.resetIn with
  | true => simp [step_reset hr]
  | false =>
    match hm : mover s with
    | none =>
      obtain ⟨hb, hh⟩ := mover_none.mp hm
      simp [step_idle hr (busy_eq_false.mp hb) hh]
    | some .engine => simp [step_engine hr hm]
    | some .host =>
      obtain ⟨a, as, hh⟩ := List.exists_cons_of_ne_nil (mover_host.mp hm).1
      simp [step_host hr hm hh, hostAction_refused, hh]

/-- Settles O19: `step_refused`, with the action named as the read or write that it is. -/
theorem onlyUnsupportedAccessesAreRefused : Obligations.OnlyUnsupportedAccessesAreRefused := by
  intro s r
  rw [step_refused]
  constructor
  · rintro ⟨hr, hi, hm, a, ha, w, off, hn, ⟨x, rfl⟩ | ⟨v, rfl⟩⟩
    · exact ⟨hr, hi, hm, w, off, hn, .inl ⟨x, ha⟩⟩
    · exact ⟨hr, hi, hm, w, off, hn, .inr ⟨v, ha⟩⟩
  · rintro ⟨hr, hi, hm, w, off, hn, ⟨x, ha⟩ | ⟨v, ha⟩⟩
    · exact ⟨hr, hi, hm, _, ha, w, off, hn, .inl ⟨x, rfl⟩⟩
    · exact ⟨hr, hi, hm, _, ha, w, off, hn, .inr ⟨v, rfl⟩⟩

/-! ### WAIT -/

/-- Settles O44: the step is one `pollStatus`, whose value read is STATUS and whose loop test is BUSY. -/
theorem waitEndsExactlyWhenReady : Obligations.WaitEndsExactlyWhenReady := by
  intro s rest hr hh hm
  have hstep := step_host hr hm hh
  set p : State := { s with host := rest, turns := if s.busy then s.turns.tail else s.turns }
  have hbusy : p.busy = s.busy := busy_congr rfl
  have hstatus : p.statusWord = s.statusWord := statusWord_congr rfl rfl rfl rfl rfl
  have hhost : (pollStatus p).host = if s.busy then .wait :: rest else rest := by rw [pollStatus_host, hbusy]
  refine ⟨pollStatus p, s.statusWord, hstep, ?_, statusWord_busy s, ?_, ?_, ?_, rfl, ?_, ?_⟩
  · rw [pollStatus_getVar, if_pos rfl, hstatus]
  · rw [hhost, statusWord_busy]
    cases s.busy <;> simp
  · rw [hhost, statusWord_busy, hh]
    intro hb
    rw [if_pos hb]
  · rw [statusWord_busy, pollStatus_seq]
    exact busy_eq_false.mp
  · rw [pollStatus_frame]
  · intro x hx
    rw [pollStatus_getVar, if_neg hx]
    rfl

/-! ### The window -/

theorem windowOffset_inside (base : Nat) (off : Offset) : windowOffset base (base + off.toNat) = some off := by
  rw [windowOffset, if_pos ⟨by omega, by omega⟩, Nat.add_sub_cancel_left, BitVec.ofNat_toNat, BitVec.setWidth_eq]

theorem windowOffset_outside {base addr : Nat} (h : addr < base ∨ base + 64 ≤ addr) : windowOffset base addr = none :=
  if_neg (by omega)

/-- Settles O42, by what the engine decodes of an address inside its window and of one outside. -/
theorem windowDecoding : Obligations.WindowDecoding := by
  intro base _
  refine ⟨fun off w x => ?_, fun off w v => ?_, fun addr w x v h => ⟨?_, ?_⟩⟩
  · rw [memRead, windowOffset_inside, Option.map_some]
  · rw [memWrite, windowOffset_inside, Option.map_some]
  · rw [memRead, windowOffset_outside h, Option.map_none]
  · rw [memWrite, windowOffset_outside h, Option.map_none]

end Sys2Proof.Machine
end

section
/-! PROOFS. Engine turns of the schedule: each is one engine step, whatever the host has pending. -/

namespace Sys2Proof.Machine

/-- An engine step does not see the schedule. -/
theorem engineStep_turns_update (s : State) (us : List Agent) :
    engineStep { s with turns := us } = { engineStep s with turns := us } := by
  have h := engineStep_beside { s with turns := us } s
  simpa [beside] using h

theorem engineStep_iterate_host (m : Nat) (s : State) : (engineStep^[m] s).host = s.host := by
  induction m with
  | zero => rfl
  | succ m ih => rw [Function.iterate_succ_apply', engineStep_host, ih]

theorem engineStep_iterate_resetIn (m : Nat) (s : State) : (engineStep^[m] s).resetIn = s.resetIn := by
  induction m with
  | zero => rfl
  | succ m ih => rw [Function.iterate_succ_apply', engineStep_resetIn, ih]

/-- At an engine turn the step is the engine's, and uses the turn up. -/
theorem step_engine_turn {s : State} (hr : s.resetIn = false) (hb : s.busy = true) (hh : s.host ≠ [])
    (us : List Agent) : step { s with turns := .engine :: us } = .next { engineStep s with turns := us } := by
  set p : State := { s with turns := .engine :: us }
  have hbusy : p.busy = true := (busy_congr rfl).trans hb
  have hm : mover p = some .engine := mover_engine.mpr ⟨hbusy, .inr (.inr rfl)⟩
  have htake : takeTurn p = { s with turns := us } := if_pos ⟨hbusy, hh⟩
  rw [step_engine (s := p) hr hm, htake, engineStep_turns_update]

/-- m engine turns are m engine steps, when the engine is busy before each. -/
theorem run_engine_turns {m : Nat} {s : State} {us : List Agent} (hr : s.resetIn = false) (hh : s.host ≠ [])
    (ht : s.turns = List.replicate m .engine ++ us) (hb : ∀ j, j < m → (engineStep^[j] s).busy = true) :
    run m s = .next { engineStep^[m] s with turns := us } := by
  induction m generalizing us with
  | zero =>
    have : s.turns = us := by simpa using ht
    rw [← this]
    rfl
  | succ m ih =>
    have hrun := ih (us := .engine :: us) (by rw [ht, List.replicate_succ']; simp) (fun j hj => hb j (by omega))
    have hstep := step_engine_turn (by rw [engineStep_iterate_resetIn, hr]) (hb m (by omega))
      (by rw [engineStep_iterate_host]; exact hh) us
    rw [run_add m 1 _ _ hrun, run_succ, hstep, ← Function.iterate_succ_apply' engineStep m s]
    rfl

/-- Settles O48: the m engine turns run, and then the schedule's host turn is at its head. -/
theorem anyNumberOfEngineStepsBetween : Obligations.AnyNumberOfEngineStepsBetween := by
  intro m s ts hr hh ht hb
  refine ⟨_, run_engine_turns hr hh ht fun j hj => hb j (by omega), rfl, mover_host.mpr ⟨?_, fun _ => rfl⟩⟩
  rw [← engineStep_iterate_host m s] at hh
  exact hh

end Sys2Proof.Machine
end

section
/-! PROOFS. The command words: decoding and encoding are inverse, and the legal words are the rows of the table (R72). -/

namespace Sys2Proof

/-! ### Round trips -/

theorem Instr.wf_eq_true (i : Instr) : i.wf = true := by
  cases i with
  | init => rfl
  | absorb b => exact decide_eq_true (by omega)
  | finish => rfl

theorem decode_encode (i : Instr) : decode (encode i) = .ok i := decode_eq_ok.mpr rfl

theorem encode_injective : Function.Injective encode := by
  intro i j h
  have hok := decode_encode i
  rw [h, decode_encode] at hok
  exact (Except.ok.inj hok).symm

/-- A word is the row of the opcode table with its own 32 bits. -/
theorem tableWord_toNat (w : Word) : tableWord 32 w.toNat = w := by
  rw [tableWord, BitVec.ofNat_toNat, BitVec.setWidth_eq, BitVec.setWidth_eq]

theorem decodeTableWord_encode (i : Instr) : decodeTableWord 32 (encode i).toNat = some i := by
  simp only [decodeTableWord, tableWord_toNat, decode_encode]

/-- Every command's word has its OP and DATA, and RSV = 0. -/
theorem Laws.Encoding.statement (i : Instr) : Laws.Encoding.Statement i := by
  cases i with
  | init => exact Laws.Encoding.init
  | absorb b => exact Laws.Encoding.absorb b
  | finish => exact Laws.Encoding.finish

/-- Settles O1: the words that decode are the words of the commands (`decode_eq_ok`), whose fields
`Laws.Encoding.Statement` gives. -/
theorem decodeAndEncodeAgree : Obligations.DecodeAndEncodeAgree := by
  refine ⟨fun i _ => ?_, fun w i h => ⟨(decode_eq_ok.mp h).symm, i.wf_eq_true⟩, fun i j h => encode_injective h⟩
  obtain ⟨hop, hrsv, hdata⟩ := Laws.Encoding.statement i
  refine ⟨decode_encode i, decodeTableWord_encode i, hop.trans ?_, hrsv, hdata.trans ?_⟩
  · cases i <;> rfl
  · cases i <;> rfl

/-! ### The rows of the table -/

/-- Under a mask of all ones a row holds one word. -/
theorem mask_full {w v : Word} : w &&& 0xFFFFFFFF#32 = v ↔ w = v := by
  rw [show (0xFFFFFFFF#32 : Word) = BitVec.allOnes 32 from rfl, BitVec.and_allOnes]

theorem decode_init_iff {w : Word} : decode w = .ok .init ↔ w &&& 0xFFFFFFFF#32 = 0x10000000#32 := by
  rw [decode_eq_ok, mask_full, show encode .init = 0x10000000#32 from rfl]

theorem decode_finish_iff {w : Word} : decode w = .ok .finish ↔ w &&& 0xFFFFFFFF#32 = 0x30000000#32 := by
  rw [decode_eq_ok, mask_full, show encode .finish = 0x30000000#32 from rfl]

theorem decode_absorb_iff {w : Word} {b : Byte} : decode w = .ok (.absorb b) ↔ w = 0x20000000#32 + b.setWidth 32 := by
  rw [decode_eq_ok, encode_absorb]

theorem exists_decode_absorb_iff {w : Word} :
    (∃ b, decode w = .ok (.absorb b)) ↔ w &&& 0xFFFFFF00#32 = 0x20000000#32 := by
  simp only [decode_eq_ok, mask_absorb]

theorem legalWord_rows {w : Word} : legalWord w = true ↔
    w &&& 0xFFFFFFFF#32 = 0x10000000#32 ∨ w &&& 0xFFFFFF00#32 = 0x20000000#32 ∨ w &&& 0xFFFFFFFF#32 = 0x30000000#32 := by
  simp only [legalWord, commandRows, List.any_cons, List.any_nil, Bool.or_false, Bool.or_eq_true, beq_iff_eq]

/-! ### Their number -/

/-- All commands: INIT, FINISH, and one ABSORB for each byte. -/
def allCommands : List Instr :=
  .init :: .finish :: (List.finRange 256).map fun b => .absorb (BitVec.ofFin b)

theorem length_allCommands : allCommands.length = 258 := by
  simp only [allCommands, List.length_cons, List.length_map, List.length_finRange]

theorem mem_allCommands (i : Instr) : i ∈ allCommands := by
  cases i with
  | init => simp [allCommands]
  | absorb b =>
    have hb : ∃ c : Fin 256, BitVec.ofFin c = b := ⟨b.toFin, rfl⟩
    simp [allCommands, hb]
  | finish => simp [allCommands]

theorem nodup_allCommands : allCommands.Nodup := by
  have habsorb : Function.Injective fun b : Fin 256 => Instr.absorb (BitVec.ofFin b) := by
    intro b c h
    simpa using h
  simpa [allCommands] using (List.nodup_finRange 256).map habsorb

/-- The legal words are the words of the commands. -/
theorem legalWord_iff_mem {w : Word} : legalWord w = true ↔ w ∈ allCommands.map encode := by
  simp only [legalWord_iff, decode_eq_ok, List.mem_map, mem_allCommands, true_and, eq_comm (a := w)]

/-- Settles O2: each row is a command's words, of which `allCommands` makes 258, and recording the error is all
that another word does (`commandWrite_illegal`). -/
theorem legalWordsAreTheTableRows : Obligations.LegalWordsAreTheTableRows := by
  refine ⟨fun w => decode_init_iff, fun w => exists_decode_absorb_iff, fun w b => decode_absorb_iff,
    fun w => decode_finish_iff, fun w => legalWord_rows, ⟨allCommands.map encode, ?_, ?_, fun w => legalWord_iff_mem⟩, ?_⟩
  · rw [List.length_map, length_allCommands]
  · exact nodup_allCommands.map encode_injective
  · intro w s hq hl
    rw [Machine.commandWrite_illegal hq hl, Machine.raiseError_eq]

end Sys2Proof
end

section
/-! PROOFS. The host's operation lines: the accesses each stands for (R76, R77), and the sample lines of text. -/

namespace Sys2Proof.Machine

/-- ABSORB b is `BusWrite(0x00, 0x20000000 + b)` (R76). -/
theorem command_absorb (b : Byte) : command (.absorb b) = .write .w32 0x00 (0x20000000#32 + b.setWidth 32) := by
  rw [command, encode_absorb]
  rfl

/-- Settles O56: the expansions by R76's encodings, the sample lines by reading them. -/
theorem assemblerLines : Obligations.AssemblerLines := by
  refine ⟨rfl, fun b => ?_, rfl, fun _ _ => rfl, fun _ _ => rfl, ?_⟩
  · rw [AsmOp.expand, command_absorb]
  · decide

theorem absorbsExpansion_eq (bs : List Byte) : absorbsExpansion bs =
    (bs.map fun b => [HostAction.write .w32 0x00 (0x20000000#32 + b.setWidth 32), .wait]).flatten := by
  simp only [absorbsExpansion, command_absorb, List.flatMap_def]

theorem hash_expand (bs : List Byte) (d : String) : (AsmOp.hash bs d).expand =
    AsmOp.wait.expand ++ AsmOp.init.expand ++ (AsmOp.absorbs bs).expand ++ AsmOp.finish.expand ++ AsmOp.wait.expand ++
      (AsmOp.readDigest d).expand := by
  simp only [AsmOp.expand, List.append_assoc, List.cons_append, List.nil_append]

/-- Words 0 to 7 in order are the eight words. -/
theorem map_getElem_finRange (ws : Vector Word 8) : ((List.finRange 8).map fun i => ws[i]) = ws.toList := by
  rw [← List.ofFn_eq_map, ← Vector.toList_ofFn]
  exact congrArg Vector.toList Vector.ofFn_getElem

/-- Once d0 ... d7 hold eight words, d is their digest bytes. -/
theorem digestValue_of_vars {d : String} {ws : Vector Word 8} {s : State}
    (h : ∀ i : Fin 8, getVar (digestVar d i) s = some ws[i]) : digestValue d s = some (digestBytes ws) := by
  have hread : (fun i : Fin 8 => getVar (digestVar d i) s) = fun i => pure ws[i] := funext h
  rw [digestValue, hread, List.mapM_pure, map_getElem_finRange]
  rfl

/-- Settles O57: each expansion by its operation's lemma, the sample lines by reading them. -/
theorem pseudoInstructionExpansions : Obligations.PseudoInstructionExpansions := by
  refine ⟨absorbsExpansion_eq, fun d => ?_, hash_expand, fun d ws s => digestValue_of_vars, ?_⟩
  · rfl
  · decide

end Sys2Proof.Machine
end

section
/-! PROOFS. A block's 66 engine steps and the busy period of one block or two: where the sequencer stands after each step,
and what the period leaves (42_schedule.md R140, 43_compression.md R169). -/

namespace Sys2Proof.Machine

theorem engineStep_iterate_L (m : Nat) (s : State) : (engineStep^[m] s).L = s.L := by
  induction m with
  | zero => rfl
  | succ m ih => rw [Function.iterate_succ_apply', engineStep_L, ih]

theorem engineStep_iterate_err (m : Nat) (s : State) : (engineStep^[m] s).err = s.err := by
  induction m with
  | zero => rfl
  | succ m ih => rw [Function.iterate_succ_apply', engineStep_err, ih]

/-! ### One block -/

/-- The sequencer when t rounds of a block are done. -/
def seqAfterRounds (t : Nat) : Seq :=
  if h : t < 64 then .round ⟨t, h⟩ else .fold

theorem afterRound_eq (t : Fin 64) : afterRound t = seqAfterRounds (t.val + 1) := by
  unfold afterRound seqAfterRounds
  by_cases h : t.val < 63
  · rw [dif_pos h, dif_pos (by omega)]
  · rw [dif_neg h, dif_neg (by omega)]

theorem seqAfterRounds_ne_ready (t : Nat) : seqAfterRounds t ≠ .ready := by
  unfold seqAfterRounds
  split <;> simp

/-- After LOAD and t rounds. -/
theorem inRounds_iterate {s : State} (h : s.seq = .load) {t : Nat} (ht : t ≤ 64) :
    InRounds s (engineStep^[t + 1] s) t ∧ (engineStep^[t + 1] s).seq = seqAfterRounds t := by
  induction t with
  | zero => exact inRounds_load h
  | succ t ih =>
    obtain ⟨hin, hseq⟩ := ih (by omega)
    have hround : (engineStep^[t + 1] s).seq = .round ⟨t, by omega⟩ := by
      rw [hseq, seqAfterRounds, dif_pos (by omega)]
    rw [Function.iterate_succ_apply', ← afterRound_eq ⟨t, by omega⟩]
    exact inRounds_round hround hin

/-- Before each of a block's 66 steps the engine is busy and in the phase LOAD found. -/
theorem block_running {s : State} (h : s.seq = .load) {k : Nat} (hk : k < 66) :
    (engineStep^[k] s).busy = true ∧ (engineStep^[k] s).phase = s.phase := by
  cases k with
  | zero => exact ⟨busy_eq_true.mpr (by simp [h]), rfl⟩
  | succ t =>
    obtain ⟨hin, hseq⟩ := inRounds_iterate h (t := t) (by omega)
    refine ⟨busy_eq_true.mpr ?_, ?_⟩
    · rw [hseq]
      exact seqAfterRounds_ne_ready t
    · rw [hin.rest]

/-- The last of a block's 66 steps is the FOLD of compress's result, with n = 0. -/
theorem block_result {s : State} (h : s.seq = .load) :
    ∃ W v, engineStep^[66] s = continueOrStop
      { s with H := Reference.compress s.H (blockWords s.buf), W := W, wv := v, n := 0, seq := .fold } := by
  obtain ⟨hin, hseq⟩ := inRounds_iterate h (t := 64) (by omega)
  exact ⟨_, _, (Function.iterate_succ_apply' engineStep 65 s).trans (fold_of_inRounds hin hseq)⟩

/-- A block with a length block pending leads to that block's LOAD. -/
theorem block_to_lengthBlock {s : State} (h : s.seq = .load) (hl : s.lenblk = true) :
    (engineStep^[66] s).seq = .load ∧ (engineStep^[66] s).lenblk = false ∧
      (engineStep^[66] s).final = s.final ∧ (engineStep^[66] s).phase = s.phase := by
  obtain ⟨W, v, hres⟩ := block_result h
  simp [hres, continueOrStop, hl]

/-- A block with no length block pending makes the engine ready, and ends the transaction where FINISH began it. -/
theorem block_to_ready {s : State} (h : s.seq = .load) (hl : s.lenblk = false) :
    (engineStep^[66] s).seq = .ready ∧ (engineStep^[66] s).n = 0 ∧
      (engineStep^[66] s).phase = if s.final then .done else s.phase := by
  obtain ⟨W, v, hres⟩ := block_result h
  cases hf : s.final <;> simp [hres, continueOrStop, hl, hf]

/-! ### The busy period -/

/-- How many engine steps a busy period has, from its first LOAD: one block's, or two with a length block (R140). -/
def busySteps (lenblk : Bool) : Nat := if lenblk then 132 else 66

/-- Before each step of a busy period the engine is busy and in the phase the first LOAD found. -/
theorem busyPeriod_running {s : State} (h : s.seq = .load) {k : Nat} (hk : k < busySteps s.lenblk) :
    (engineStep^[k] s).busy = true ∧ (engineStep^[k] s).phase = s.phase := by
  by_cases hfirst : k < 66
  · exact block_running h hfirst
  cases hl : s.lenblk with
  | false => simp [busySteps, hl, hfirst] at hk
  | true =>
    have hk : k < 132 := by simpa [busySteps, hl] using hk
    obtain ⟨hload, -, -, hphase⟩ := block_to_lengthBlock h hl
    rw [← Nat.sub_add_cancel (show 66 ≤ k by omega), Function.iterate_add_apply, ← hphase]
    exact block_running hload (by omega)

/-- What a busy period leaves. -/
theorem busyPeriod_end {s : State} (h : s.seq = .load) :
    (engineStep^[busySteps s.lenblk] s).seq = .ready ∧ (engineStep^[busySteps s.lenblk] s).n = 0 ∧
      (engineStep^[busySteps s.lenblk] s).phase = if s.final then .done else s.phase := by
  cases hl : s.lenblk with
  | false => exact block_to_ready h hl
  | true =>
    obtain ⟨hload, hl', hfinal, hphase⟩ := block_to_lengthBlock h hl
    rw [busySteps, if_pos rfl, Function.iterate_add_apply engineStep 66 66, ← hfinal, ← hphase]
    exact block_to_ready hload hl'

end Sys2Proof.Machine
end

section
/-! PROOFS. The command dispatch (40_commands.md R100): what a write of any word to CMD does. -/

namespace Sys2Proof.Machine

/-- The host's write to CMD, at its move, is `commandWrite` at the state with that access taken off. -/
theorem step_commandWrite {s : State} {v : Word} {rest : List HostAction} (hr : s.resetIn = false)
    (hh : s.host = .write .w32 0x00 v :: rest) (hm : s.busy = true → s.turns.head? = some .host) :
    step s = commandWrite v { s with host := rest, turns := if s.busy then s.turns.tail else s.turns } :=
  step_host hr (mover_host.mpr ⟨by simp [hh], hm⟩) hh

/-- A placed command word is the host's next write to CMD, and taking it off gives back all but the reset input. -/
theorem step_withFetchWord (s : State) (v : Word) : step (s.withFetchWord 32 v.toNat) =
    commandWrite v { s with resetIn := false } := by
  have hbusy : (s.withFetchWord 32 v.toNat).busy = s.busy := busy_congr rfl
  have hhost : (s.withFetchWord 32 v.toNat).host = .write .w32 0x00 v :: s.host := by
    rw [State.withFetchWord, tableWord_toNat]
  rw [step_commandWrite rfl hhost (by rw [hbusy]; intro hb; simp [State.withFetchWord, hb]), hbusy]
  cases hb : s.busy <;> simp [State.withFetchWord, hb]

/-- Settles O4: a CMD write of a word that decodes is the command (`commandWrite_legal`). -/
theorem stepRunsTheDecodedCommand : Obligations.StepRunsTheDecodedCommand := by
  refine ⟨fun s v i rest hr hh hm hd => ?_, fun s v i hd => ?_⟩
  · rw [step_commandWrite hr hh hm, commandWrite_legal hd]
  · rw [step_withFetchWord, commandWrite_legal hd]

/-- The low byte of ABSORB's word is its byte. -/
theorem encode_absorb_low (b : Byte) : (encode (.absorb b)).extractLsb' 0 8 = b := commandWord_data _ _

/-- R100's list in its order: the busy test, the legality test, and then the test that each of the three commands meets. -/
theorem commandWrite_dispatch (v : Word) (s : State) : commandWrite v s =
    if s.seq ≠ .ready then .fault .cmdWhileBusy
    else if legalWord v = false then .next (raiseError .illegalCmd s)
    else if v = 0x10000000#32 then exec .init s
    else if s.phase ≠ .absorb then .next (raiseError .sequence s)
    else if v &&& 0xFFFFFF00#32 = 0x20000000#32 then exec (.absorb (v.extractLsb' 0 8)) s
    else exec .finish s := by
  by_cases hq : s.seq = .ready
  case neg => rw [if_pos hq, commandWrite_busy (busy_eq_true.mpr hq)]
  rw [if_neg (not_not_intro hq)]
  cases hl : legalWord v with
  | false => rw [if_pos rfl, commandWrite_illegal hq hl]
  | true =>
    obtain ⟨i, hi⟩ := legalWord_iff.mp hl
    obtain rfl := decode_eq_ok.mp hi
    rw [if_neg (by decide), commandWrite_legal hi]
    by_cases hinit : i = .init
    · rw [hinit, if_pos encode_init]
    rw [if_neg fun h => hinit (encode_injective (h.trans encode_init.symm))]
    by_cases hp : s.phase = .absorb
    case neg => rw [if_pos hp, exec_sequence hq hp hinit]
    rw [if_neg (not_not_intro hp)]
    cases i with
    | init => exact absurd rfl hinit
    | absorb b => rw [if_pos (mask_absorb.mpr ⟨b, rfl⟩), encode_absorb_low]
    | finish => rw [if_neg (by decide)]

/-- Settles O5, by `commandWrite_dispatch` at the state with the access taken off. -/
theorem commandDispatchInOrder : Obligations.CommandDispatchInOrder := by
  intro s v rest hr hh hm
  rw [step_commandWrite hr hh hm, commandWrite_dispatch]

end Sys2Proof.Machine
end

section
/-! PROOFS. The commands INIT, ABSORB and FINISH (40_commands.md R101 to R103), and what they leave unchanged. -/

namespace Sys2Proof.Machine

/-- STATUS when the engine is ready, with an empty buffer and no error: PHASE alone. -/
theorem statusWord_of_empty {s : State} (hq : s.seq = .ready) (hn : s.n = 0) (he : s.err = .none) :
    s.statusWord = s.phase.code.setWidth 32 <<< 1 := by
  rw [State.statusWord, bufCountField_of_ready hq, busy_eq_false.mpr hq, hn, he]
  cases s.phase <;> rfl

/-- ABSORB and FINISH after the end of a transaction raise SEQUENCE. -/
theorem exec_done {s : State} (hq : s.seq = .ready) (hp : s.phase = .done) {i : Instr} (hi : i ≠ .init) :
    exec i s = .next { s with err := .sequence, phase := .error } := by
  rw [exec_sequence hq (by simp [hp]) hi, raiseError_eq, if_neg (by simp [hp])]

/-! ### INIT -/

theorem readReg_digest_of_ready {s : State} (hq : s.seq = .ready) (i : Fin 8) : readReg (.digest i) s = s.H[i] := by
  rw [readReg, busy_eq_false.mpr hq]
  exact if_neg Bool.false_ne_true

theorem readReg_len_of_zero {s : State} (hL : s.L = 0) : readReg .lenLo s = 0 ∧ readReg .lenHi s = 0 := by
  simp [readReg, hL]

/-- Settles O6: INIT's answer is `startTransaction`, at which the reads are those of an empty transaction. -/
theorem initStartsATransaction : Obligations.InitStartsATransaction := by
  refine ⟨fun s hq => ?_, fun s hq => exec_busy (busy_eq_true.mpr hq) _, fun w => decode_eq_ok⟩
  have hready : (startTransaction s).seq = .ready := hq
  obtain ⟨hlo, hhi⟩ := readReg_len_of_zero (startTransaction_L s)
  refine ⟨startTransaction s, exec_init hq, rfl, ?_, hlo, hhi, fun i => readReg_digest_of_ready hready i⟩
  rw [statusWord_of_empty hready rfl rfl]
  rfl

/-! ### ABSORB -/

theorem absorbByte_busy {s : State} (hq : s.seq = .ready) (b : Byte) :
    (absorbByte b s).busy = decide (s.n + 1 = 64) := by
  rw [busy_eq, absorbByte_seq, hq]
  by_cases h : s.n + 1 = 64 <;> simp [h]

/-- Settles O7: below the limit the answer is `absorbByte`, at it the error. -/
theorem absorbAppendsAByte : Obligations.AbsorbAppendsAByte := by
  refine ⟨fun b s hq hp _ hL => ?_, fun b s hq hp hL => ?_, fun b s hq hp => exec_sequence hq hp (by simp),
    fun b s hq => exec_busy (busy_eq_true.mpr hq) _, fun w b => decode_absorb_iff⟩
  · refine ⟨absorbByte b s, exec_absorb hq hp (mt maxLength_toNat.mp hL) b, ?_, fun j => ?_, absorbByte_busy hq b, hp, ?_⟩
    · rw [← hq]
      rfl
    · exact getElem_setIfInBounds s.buf s.n b j
    · intro hb
      rw [bufCountField_of_ready (busy_eq_false.mp hb), absorbByte_n]
  · rw [exec_absorb_overflow hq hp (maxLength_toNat.mpr hL), raiseError_eq, if_neg (by simp [hp])]

/-! ### FINISH -/

/-- FINISH's busy period is of two blocks when the length field does not fit behind the marker (R122). -/
theorem busySteps_finishMessage (s : State) :
    busySteps (finishMessage s).lenblk = if s.n ≤ 55 then 66 else 132 := by
  rw [finishMessage_lenblk, busySteps, lastRoomForLength]
  by_cases h : s.n ≤ 55
  · rw [if_pos h, if_neg (by simpa using h)]
  · rw [if_neg h, if_pos (by simpa using h)]

/-- Settles O9: FINISH begins a busy period (`busyPeriod_running`) that ends the transaction (`busyPeriod_end`). -/
theorem finishRunsToDone : Obligations.FinishRunsToDone := by
  refine ⟨fun s hi hq hp hr hh => ?_, fun s hq hp => exec_sequence hq hp (by decide),
    fun s hq => exec_busy (busy_eq_true.mpr hq) _, fun w => decode_eq_ok⟩
  set t := finishMessage s with ht
  have hload : t.seq = .load := finishMessage_seq s
  have hphase : t.phase = .absorb := by rw [ht, finishMessage_phase, hp]
  have hL (k : Nat) : (engineStep^[k] t).L = s.L := by rw [engineStep_iterate_L, ht, finishMessage_L]
  have hrun (k : Nat) : run k t = .next (engineStep^[k] t) :=
    run_alone (by rw [ht, finishMessage_resetIn, hr]) (by rw [ht, finishMessage_host, hh]) k
  rw [← busySteps_finishMessage, ← ht]
  set u := engineStep^[busySteps t.lenblk] t with hu
  obtain ⟨hready, hn, hend⟩ := busyPeriod_end hload
  have hdone : u.phase = .done := hend.trans (if_pos (finishMessage_final s))
  have herr : u.err = .none := by
    rw [hu, engineStep_iterate_err, ht, finishMessage_err, hi.err_of_absorb hp]
  refine ⟨t, u, exec_finish hq hp, rfl, (block_running hload (k := 0) (by omega)).1, hphase, hrun _, hready, hdone, ?_,
    hL _, fun k hk => ?_, exec_done hready hdone (by decide), fun b => exec_done hready hdone (by simp)⟩
  · rw [statusWord_of_empty hready hn herr, hdone]
    rfl
  · obtain ⟨hbusy, hph⟩ := busyPeriod_running hload hk
    exact ⟨_, hrun k, hbusy, hph.trans hphase, hL k⟩

/-! ### The frame -/

@[simp] theorem raiseError_phase (c : ErrCode) (s : State) : (raiseError c s).phase = .error := by
  rw [raiseError_eq]
  split
  · assumption
  · rfl

/-- Settles O10, one case for each thing a command can answer. -/
theorem commandsFrame : Obligations.CommandsFrame := by
  intro i s t h
  obtain ⟨-, ⟨rfl, rfl⟩ | ⟨hi, -, rfl⟩ | ⟨b, rfl, hp, -, rfl⟩ | ⟨b, rfl, hp, -, rfl⟩ | ⟨rfl, hp, rfl⟩⟩ := exec_next h
  · simp
  · simp [hi]
  · simp
  · have hbuf (j : Fin 64) (hj : j.val ≠ s.n) : (absorbByte b s).buf[j] = s.buf[j] :=
      (getElem_setIfInBounds s.buf s.n b j).trans (if_neg hj)
    simpa [hp] using hbuf
  · have hbuf (j : Fin 64) (hj : j.val < s.n) : (finishMessage s).buf[j] = s.buf[j] := by
      rw [finishMessage_buf, paddedBuf_get, if_pos hj]
    simpa [hp] using hbuf

end Sys2Proof.Machine
end

section
/-! PROOFS. The padding function pad(M) byte by byte (41_padding.md R120), the number of its zero bytes and of its blocks
(R125), and its blocks. -/

namespace Sys2Proof.Reference

open Sys2Proof.Machine

/-! ### Its bytes -/

theorem be64bytes_getElem? (L : BitLength) {i : Nat} (h : i < 8) : (be64bytes L)[i]? = some (be64byte L i) := by
  interval_cases i <;> rfl

theorem pad_eq (M : List Byte) : pad M =
    M ++ 0x80#8 :: (List.replicate (padCount M.length) 0#8 ++ be64bytes (BitVec.ofNat 64 (8 * M.length))) := by
  simp only [pad, List.append_assoc, List.cons_append, List.nil_append]

theorem length_pad (M : List Byte) : (pad M).length = M.length + 9 + padCount M.length := by
  simp only [pad_eq, List.length_append, List.length_cons, List.length_replicate, be64bytes, List.length_nil]
  omega

theorem pad_message (M : List Byte) {i : Nat} (h : i < M.length) : (pad M)[i]? = M[i]? := by
  rw [pad_eq, List.getElem?_append_left h]

theorem pad_marker (M : List Byte) : (pad M)[M.length]? = some 0x80#8 := by
  rw [pad_eq, List.getElem?_append_right (le_refl _), Nat.sub_self, List.getElem?_cons_zero]

/-- Past the marker stand the zeros and the length field. -/
theorem pad_past_marker (M : List Byte) (i : Nat) : (pad M)[M.length + 1 + i]? =
    (List.replicate (padCount M.length) 0#8 ++ be64bytes (BitVec.ofNat 64 (8 * M.length)))[i]? := by
  rw [pad_eq, List.getElem?_append_right (by omega), show M.length + 1 + i - M.length = i + 1 by omega,
    List.getElem?_cons_succ]

theorem pad_zero (M : List Byte) {i : Nat} (h : i < padCount M.length) : (pad M)[M.length + 1 + i]? = some 0#8 := by
  rw [pad_past_marker, List.getElem?_append_left (by simpa using h), List.getElem?_replicate_of_lt h]

theorem pad_lengthField (M : List Byte) {i : Nat} (h : i < 8) :
    (pad M)[M.length + 1 + padCount M.length + i]? = some (be64byte (BitVec.ofNat 64 (8 * M.length)) i) := by
  rw [Nat.add_assoc, pad_past_marker, List.getElem?_append_right (by simp), List.length_replicate,
    Nat.add_sub_cancel_left, be64bytes_getElem? _ h]

/-! ### How many zeros and blocks -/

/-- The zeros fill the last block, and are fewer than a block. -/
theorem padCount_fills (len : Nat) : (len + 9 + padCount len) % 64 = 0 ∧ padCount len ≤ 63 := by
  unfold padCount; omega

theorem padCount_of_room {len : Nat} (h : len % 64 ≤ 55) : padCount len = 55 - len % 64 := by
  have := padCount_fills len; omega

theorem padCount_of_noRoom {len : Nat} (h : 56 ≤ len % 64) : padCount len = 119 - len % 64 := by
  have := padCount_fills len; omega

theorem blockCount_of_room {M : List Byte} (h : M.length % 64 ≤ 55) : blockCount M = M.length / 64 + 1 := by
  have := padCount_of_room h; rw [blockCount, length_pad]; omega

theorem blockCount_of_noRoom {M : List Byte} (h : 56 ≤ M.length % 64) : blockCount M = M.length / 64 + 2 := by
  have := padCount_of_noRoom h; rw [blockCount, length_pad]; omega

/-- Settles O34: the bytes part by part of `pad_eq`, the counts from `padCount_fills`. -/
theorem paddingFunction : Obligations.PaddingFunction := by
  intro M
  obtain ⟨hfills, hlt⟩ := padCount_fills M.length
  refine ⟨fun i => pad_message M, pad_marker M, fun i h1 h2 => ?_, fun i => pad_lengthField M, length_pad M, ?_, ?_, ?_, ?_,
    hlt, rfl, ?_, fun h => ⟨padCount_of_room h, blockCount_of_room h⟩,
    fun h => ⟨padCount_of_noRoom h, blockCount_of_noRoom h⟩⟩
  · have hzero := pad_zero M (i := i - (M.length + 1)) (by omega)
    rwa [show M.length + 1 + (i - (M.length + 1)) = i by omega] at hzero
  · rw [length_pad]; exact hfills
  · rw [length_pad]; omega
  · intro q hq; rw [length_pad]; omega
  · intro k hk; omega
  · omega

/-! ### Its blocks -/

theorem padBlock_getElem (M : List Byte) (j : Nat) {i : Nat} (h : i < 64) :
    (padBlock M j)[i] = (pad M).getD (64 * j + i) 0 := by
  rw [padBlock, Vector.getElem_ofFn]

/-- The byte of a block at a position of pad(M). -/
theorem padBlock_of_getElem? {M : List Byte} {j i x : Nat} {b : Byte} {h : i < 64} (hx : (pad M)[x]? = some b)
    (hi : 64 * j + i = x) : (padBlock M j)[i] = b := by
  rw [padBlock_getElem, hi, List.getD_eq_getElem?_getD, hx, Option.getD_some]

/-- The words of a block are B_j. -/
theorem blockWords_padBlock (M : List Byte) (j : Nat) : blockWords (padBlock M j) = blockOf M j := by
  rw [blockWords, blockOf]
  refine congrArg Vector.ofFn (funext fun w => ?_)
  simp only [blockWord, padBlock_getElem, Nat.add_assoc]

/-- PAD_FINAL makes the message's last bytes into the block of pad(M) that holds the marker. -/
theorem paddedBuf_eq_padBlock {M : List Byte} {buf : Vector Byte 64}
    (hbuf : ∀ j : Fin 64, j.val < M.length % 64 → buf[j] = (padBlock M (M.length / 64))[j]) :
    paddedBuf (BitVec.ofNat 64 (8 * M.length)) (M.length % 64) buf = padBlock M (M.length / 64) := by
  refine Vector.ext fun j hj => ?_
  refine (paddedBuf_get _ _ buf ⟨j, hj⟩).trans (Eq.symm ?_)
  dsimp only
  have hroom := @padCount_of_room M.length
  have hnoRoom := @padCount_of_noRoom M.length
  by_cases hmsg : j < M.length % 64
  · rw [if_pos hmsg]; exact (hbuf ⟨j, hj⟩ hmsg).symm
  rw [if_neg hmsg]
  by_cases hmark : j = M.length % 64
  · rw [if_pos hmark]; exact padBlock_of_getElem? (pad_marker M) (by omega)
  rw [if_neg hmark]
  by_cases hlen : M.length % 64 ≤ 55 ∧ 56 ≤ j
  · rw [if_pos hlen]
    exact padBlock_of_getElem? (pad_lengthField M (i := j - 56) (by omega)) (by omega)
  · rw [if_neg hlen]
    exact padBlock_of_getElem? (pad_zero M (i := j - M.length % 64 - 1) (by omega)) (by omega)

/-- The length block is the block of pad(M) behind the marker's, where that has no room for the length. -/
theorem lengthBlockBuf_eq_padBlock {M : List Byte} (h : 56 ≤ M.length % 64) :
    lengthBlockBuf (BitVec.ofNat 64 (8 * M.length)) = padBlock M (M.length / 64 + 1) := by
  have hcount := padCount_of_noRoom h
  refine Vector.ext fun j hj => Eq.symm ?_
  rw [lengthBlockBuf, Vector.getElem_ofFn]
  by_cases hlen : 56 ≤ j
  · rw [if_pos hlen]
    exact padBlock_of_getElem? (pad_lengthField M (i := j - 56) (by omega)) (by omega)
  · rw [if_neg hlen]
    exact padBlock_of_getElem? (pad_zero M (i := 63 - M.length % 64 + j) (by omega)) (by omega)

end Sys2Proof.Reference
end

section
/-! PROOFS. The padding controller: what FINISH writes to the block buffer (41_padding.md R122), and that neither it nor
ABSORB looks at a message byte (R121). -/

namespace Sys2Proof.Machine

theorem finishMessage_frame (s : State) : finishMessage s =
    { s with buf := paddedBuf s.L s.n s.buf, lenblk := decide (56 ≤ s.n), final := true, seq := .load } := by
  have hlenblk : decide (lastRoomForLength < s.n) = decide (56 ≤ s.n) := rfl
  rw [← hlenblk, finishMessage, padFinal]

/-- Settles O8: FINISH's answer is `finishMessage`, its buffer `paddedBuf` byte by byte. -/
theorem finishPadsTheBlock : Obligations.FinishPadsTheBlock := by
  intro s hq hp _
  refine ⟨finishMessage s, exec_finish hq hp, ?_, busy_eq_true.mpr (by simp), fun j => ?_⟩
  · rw [finishMessage_frame]
  · rw [finishMessage_buf, paddedBuf_get]

/-- From m on, the padded buffer does not depend on the bytes it pads. -/
theorem paddedBuf_congr {L : BitLength} {m : Nat} (buf buf' : Vector Byte 64) {j : Fin 64} (h : m ≤ j.val) :
    (paddedBuf L m buf')[j] = (paddedBuf L m buf)[j] := by
  have hj : ¬ j.val < m := by omega
  rw [paddedBuf_get, paddedBuf_get, if_neg hj, if_neg hj]

/-- The buffer after ABSORB, accepted or turned away. -/
theorem exec_absorb_buf {b : Byte} {s t : State} (h : exec (.absorb b) s = .next t) (j : Fin 64) :
    t.buf[j] = if j.val = s.n ∧ s.phase = .absorb ∧ s.L.toNat ≠ 2 ^ 64 - 8 then b else s.buf[j] := by
  obtain ⟨-, ⟨hi, -⟩ | ⟨-, hp, rfl⟩ | ⟨_, -, -, hL, rfl⟩ | ⟨_, hi, hp, hL, rfl⟩ | ⟨hi, -⟩⟩ := exec_next h
  · cases hi
  · rw [if_neg fun hc => hp hc.2.1, raiseError_buf]
  · rw [if_neg fun hc => hc.2.2 (maxLength_toNat.mp hL), raiseError_buf]
  · cases hi
    simp only [absorbByte_buf, getElem_setIfInBounds, and_iff_left (And.intro hp (mt maxLength_toNat.mpr hL))]
  · cases hi

/-- ABSORB of another byte answers the same state but for the buffer. -/
theorem exec_absorb_other {b : Byte} (b' : Byte) {s t : State} (h : exec (.absorb b) s = .next t) :
    ∃ t', exec (.absorb b') s = .next t' ∧ t' = { t with buf := t'.buf } := by
  obtain ⟨hq, ⟨hi, -⟩ | ⟨-, hp, rfl⟩ | ⟨_, -, hp, hL, rfl⟩ | ⟨_, -, hp, hL, rfl⟩ | ⟨hi, -⟩⟩ := exec_next h
  · cases hi
  · exact ⟨_, exec_sequence hq hp (by simp), rfl⟩
  · exact ⟨_, exec_absorb_overflow hq hp hL b', rfl⟩
  · exact ⟨_, exec_absorb hq hp hL b', rfl⟩
  · cases hi

/-- Settles O35: PAD_FINAL by `paddedBuf_congr`, ABSORB by `exec_absorb_buf`. -/
theorem paddingNeverReadsTheMessage : Obligations.PaddingNeverReadsTheMessage := by
  refine ⟨fun s buf' => ⟨fun j hj => ?_, fun j hj => ?_, rfl, rfl⟩, fun b b' s t h => ?_, fun b s t h j => ⟨?_, ?_⟩⟩
  · rw [padFinal_buf, padFinal_buf]; exact paddedBuf_congr s.buf buf' hj
  · rw [padFinal_buf, paddedBuf_get]; exact if_pos hj
  · obtain ⟨t', h', ht'⟩ := exec_absorb_other b' h
    refine ⟨t', h', ht', fun j hj => ?_⟩
    rw [exec_absorb_buf h, exec_absorb_buf h', if_neg fun hc => hj hc.1, if_neg fun hc => hj hc.1]
  · intro hj; rw [exec_absorb_buf h, if_neg fun hc => hj hc.1]
  · intro hj; simp only [exec_absorb_buf h, hj, true_and]

end Sys2Proof.Machine
end

section
/-! PROOFS. A busy period under any schedule: the host's WAIT (30_encoding.md R77) lasts as long as the engine is busy, and
the blocks LOAD takes meanwhile are the engine's own. -/

namespace Sys2Proof.Machine

open Sys2Proof.Reference

/-! ### The engine beside any host -/

section beside_fields
variable (p s : State)

@[simp] theorem beside_seq : (beside p s).seq = s.seq := rfl
@[simp] theorem beside_resetIn : (beside p s).resetIn = s.resetIn := rfl
@[simp] theorem beside_host : (beside p s).host = p.host := rfl
@[simp] theorem beside_turns : (beside p s).turns = p.turns := rfl
@[simp] theorem beside_busy : (beside p s).busy = s.busy := busy_congr rfl

end beside_fields

theorem takeTurn_beside (p s : State) : takeTurn (beside p s) = beside (takeTurn (beside p s)) s := by
  unfold takeTurn; split <;> rfl

theorem pollStatus_beside (p s : State) : pollStatus (beside p s) = beside (pollStatus (beside p s)) s := by
  unfold pollStatus; dsimp only; split <;> rfl

/-! ### One step of a run -/

/-- A host step counts no engine step and takes no block. -/
theorem reaches_host {s t : State} {a : HostAction} {as : List HostAction} (hr : s.resetIn = false)
    (hm : mover s = some .host) (hh : s.host = a :: as)
    (h : hostAction a { s with host := as, turns := if s.busy then s.turns.tail else s.turns } = .next t) :
    Reaches s t 0 [] := by
  have hstep := reaches_step ((step_host hr hm hh).trans h) (Reaches.refl t)
  simpa [engineMoves, hm] using hstep

theorem reaches_host_ready {s t : State} {a : HostAction} {as : List HostAction} (hr : s.resetIn = false)
    (hq : s.seq = .ready) (hh : s.host = a :: as) (h : hostAction a { s with host := as } = .next t) :
    Reaches s t 0 [] := by
  have hb := busy_eq_false.mpr hq
  refine reaches_host hr (mover_host.mpr ⟨by simp [hh], by simp [hb]⟩) hh ?_
  rw [hb]
  exact h

/-- An engine step takes the block in the buffer exactly when it is LOAD's. -/
theorem reaches_engine {s : State} (hr : s.resetIn = false) (hm : mover s = some .engine) :
    Reaches s (engineStep (takeTurn s)) 1 (if s.seq = .load then [s.buf] else []) := by
  have hstep := reaches_step (step_engine hr hm) (Reaches.refl _)
  simpa [engineMoves, hm, hr] using hstep

/-! ### WAIT -/

/-- The host's polls use the schedule up to the engine's next turn, and leave the engine as it is. -/
theorem reaches_engine_turn {p s : State} {rest : List HostAction} (hr : s.resetIn = false) (hb : s.busy = true)
    (hp : p.host = .wait :: rest) :
    ∃ q, q.host = .wait :: rest ∧ mover (beside q s) = some .engine ∧ Reaches (beside p s) (beside q s) 0 [] := by
  induction hts : p.turns generalizing p with
  | nil => exact ⟨p, hp, mover_engine.mpr ⟨hb, .inr (.inl hts)⟩, .refl _⟩
  | cons a as ih =>
    cases a with
    | engine => exact ⟨p, hp, mover_engine.mpr ⟨hb, .inr (.inr (by simp [hts]))⟩, .refl _⟩
    | host =>
      set p' := pollStatus (beside { p with host := rest, turns := as } s) with hp'
      have hpoll : Reaches (beside p s) (beside p' s) 0 [] := by
        refine reaches_host hr (mover_host.mpr ⟨by simp [hp], by simp [hts]⟩) hp ?_
        rw [hp', ← pollStatus_beside, beside_busy, if_pos hb, beside_turns, hts]
        rfl
      have hwait : p'.host = .wait :: rest := by rw [hp', pollStatus_host, beside_busy, if_pos hb]; rfl
      obtain ⟨q, hq, hm, hreach⟩ := ih hwait (by simp [hp'])
      exact ⟨q, hq, hm, hpoll.trans hreach⟩

/-- The blocks LOAD takes in the engine's next m steps. -/
def engineBlocks : Nat → State → List (Vector Byte 64)
  | 0, _     => []
  | m + 1, s => (if s.seq = .load then [s.buf] else []) ++ engineBlocks m (engineStep s)

/-- WAIT ends after the m steps the engine needs to become ready. -/
theorem reaches_wait {m : Nat} {p s : State} {rest : List HostAction} (hr : s.resetIn = false)
    (hp : p.host = .wait :: rest) (hb : ∀ j, j < m → (engineStep^[j] s).busy = true)
    (hq : (engineStep^[m] s).seq = .ready) :
    ∃ q, q.host = rest ∧ Reaches (beside p s) (beside q (engineStep^[m] s)) m (engineBlocks m s) := by
  induction m generalizing p s with
  | zero =>
    have hq : s.seq = .ready := hq
    refine ⟨pollStatus (beside { p with host := rest } s), ?_, reaches_host_ready hr hq hp ?_⟩
    · rw [pollStatus_host, beside_busy, busy_eq_false.mpr hq]; rfl
    · exact congrArg Host.Outcome.next (pollStatus_beside { p with host := rest } s)
  | succ m ih =>
    obtain ⟨q, hqw, hm, hturn⟩ := reaches_engine_turn hr (hb 0 (by omega)) hp
    have hstep := reaches_engine (s := beside q s) hr hm
    rw [takeTurn_beside, engineStep_beside] at hstep
    obtain ⟨u, hu, hrest⟩ := ih (s := engineStep s) (p := takeTurn (beside q s)) (by rw [engineStep_resetIn, hr])
      (by rw [takeTurn_host]; exact hqw) (fun j hj => hb (j + 1) (by omega)) hq
    refine ⟨u, hu, ?_⟩
    have htotal := hturn.trans (hstep.trans hrest)
    rwa [Nat.zero_add, Nat.add_comm 1 m] at htotal

theorem reaches_wait_ready {s : State} {rest : List HostAction} (hr : s.resetIn = false) (hq : s.seq = .ready)
    (hh : s.host = .wait :: rest) : ∃ q, q.host = rest ∧ Reaches s (beside q s) 0 [] :=
  reaches_wait (m := 0) hr hh (by simp) hq

/-! ### The blocks and the result of a busy period -/

theorem engineBlocks_add (m k : Nat) (s : State) :
    engineBlocks (m + k) s = engineBlocks m s ++ engineBlocks k (engineStep^[m] s) := by
  induction m generalizing s with
  | zero => rw [Nat.zero_add]; rfl
  | succ m ih => rw [Nat.succ_add, engineBlocks, ih, engineBlocks, List.append_assoc]; rfl

theorem engineBlocks_eq_nil {m : Nat} {s : State} (h : ∀ j, j < m → (engineStep^[j] s).seq ≠ .load) :
    engineBlocks m s = [] := by
  induction m generalizing s with
  | zero => rfl
  | succ m ih =>
    have hfirst : s.seq ≠ .load := h 0 (by omega)
    rw [engineBlocks, if_neg hfirst, ih fun j hj => h (j + 1) (by omega)]
    rfl

theorem seqAfterRounds_ne_load (t : Nat) : seqAfterRounds t ≠ .load := by
  unfold seqAfterRounds
  split <;> simp

/-- In a block's 66 steps LOAD takes the one block. -/
theorem engineBlocks_block {s : State} (h : s.seq = .load) : engineBlocks 66 s = [s.buf] := by
  have hrest : engineBlocks 65 (engineStep s) = [] := engineBlocks_eq_nil fun j hj => by
    rw [← Function.iterate_succ_apply, (inRounds_iterate h (by omega)).2]
    exact seqAfterRounds_ne_load j
  rw [engineBlocks, hrest, if_pos h]
  rfl

/-- The blocks of the busy period that LOAD begins in `s`: the one in the buffer, and the length block where it is
pending. -/
def pendingBlocks (s : State) : List (Vector Byte 64) :=
  s.buf :: if s.lenblk then [lengthBlockBuf s.L] else []

/-- What compressing the blocks of the list, one after the other, makes of a Hash State. -/
def compressBlocks (H : Vector Word 8) (bl : List (Vector Byte 64)) : Vector Word 8 :=
  bl.foldl (fun H B => compress H (blockWords B)) H

theorem compressBlocks_append (H : Vector Word 8) (bl bl' : List (Vector Byte 64)) :
    compressBlocks H (bl ++ bl') = compressBlocks (compressBlocks H bl) bl' := List.foldl_append

/-- The first of two blocks leaves the length block in the buffer. -/
theorem block_to_lengthBlock_buf {s : State} (h : s.seq = .load) (hl : s.lenblk = true) :
    (engineStep^[66] s).buf = lengthBlockBuf s.L := by
  obtain ⟨W, v, hres⟩ := block_result h
  simp [hres, continueOrStop, hl]

theorem block_H {s : State} (h : s.seq = .load) : (engineStep^[66] s).H = compress s.H (blockWords s.buf) := by
  obtain ⟨W, v, hres⟩ := block_result h
  cases hl : s.lenblk <;> cases hf : s.final <;> simp [hres, continueOrStop, hl, hf]

theorem block_to_ready_flags {s : State} (h : s.seq = .load) (hl : s.lenblk = false) :
    (engineStep^[66] s).lenblk = false ∧ (engineStep^[66] s).final = false := by
  obtain ⟨W, v, hres⟩ := block_result h
  cases hf : s.final <;> simp [hres, continueOrStop, hl, hf]

theorem engineBlocks_busyPeriod {s : State} (h : s.seq = .load) :
    engineBlocks (busySteps s.lenblk) s = pendingBlocks s := by
  cases hl : s.lenblk with
  | false => rw [pendingBlocks, hl]; exact engineBlocks_block h
  | true =>
    obtain ⟨hload, -, -, -⟩ := block_to_lengthBlock h hl
    rw [busySteps, if_pos rfl, engineBlocks_add 66 66, engineBlocks_block h, engineBlocks_block hload,
      block_to_lengthBlock_buf h hl, pendingBlocks, hl]
    rfl

theorem busyPeriod_H {s : State} (h : s.seq = .load) :
    (engineStep^[busySteps s.lenblk] s).H = compressBlocks s.H (pendingBlocks s) := by
  cases hl : s.lenblk with
  | false => rw [pendingBlocks, hl]; exact block_H h
  | true =>
    obtain ⟨hload, -, -, -⟩ := block_to_lengthBlock h hl
    rw [busySteps, if_pos rfl, Function.iterate_add_apply engineStep 66 66, block_H hload, block_H h,
      block_to_lengthBlock_buf h hl, pendingBlocks, hl]
    rfl

/-- A busy period leaves neither of FINISH's two flags. -/
theorem busyPeriod_flags {s : State} (h : s.seq = .load) :
    (engineStep^[busySteps s.lenblk] s).lenblk = false ∧ (engineStep^[busySteps s.lenblk] s).final = false := by
  cases hl : s.lenblk with
  | false => exact block_to_ready_flags h hl
  | true =>
    obtain ⟨hload, hl', -, -⟩ := block_to_lengthBlock h hl
    rw [busySteps, if_pos rfl, Function.iterate_add_apply engineStep 66 66]
    exact block_to_ready_flags hload hl'

/-- WAIT at the beginning of a busy period runs to its end, and LOAD takes the pending blocks. -/
theorem reaches_wait_busyPeriod {s : State} {rest : List HostAction} (hr : s.resetIn = false) (hq : s.seq = .load)
    (hh : s.host = .wait :: rest) :
    ∃ q, q.host = rest ∧
      Reaches s (beside q (engineStep^[busySteps s.lenblk] s)) (busySteps s.lenblk) (pendingBlocks s) := by
  obtain ⟨hready, -, -⟩ := busyPeriod_end hq
  rw [← engineBlocks_busyPeriod hq]
  exact reaches_wait hr hh (fun j hj => (busyPeriod_running hq hj).1) hready

end Sys2Proof.Machine
end

section
/-! PROOFS. A transaction under any schedule (41_padding.md R123): `Absorbed M i` holds after the first i bytes of M and
`Completed M` after FINISH; between them LOAD takes the blocks of pad(M). -/

namespace Sys2Proof.Machine

open Sys2Proof.Reference

/-! ### The host's accesses in a run -/

theorem hostAction_command (i : Instr) (p : State) : hostAction (command i) p = exec i p := by
  rw [command, hostAction, whenSupported_of (by decide)]
  exact commandWrite_legal (decode_encode i)

theorem reaches_command {s t : State} {i : Instr} {rest : List HostAction} (hr : s.resetIn = false)
    (hq : s.seq = .ready) (hh : s.host = command i :: rest) (h : exec i { s with host := rest } = .next t) :
    Reaches s t 0 [] :=
  reaches_host_ready hr hq hh ((hostAction_command i _).trans h)

theorem reaches_read {s : State} {off : Offset} {x : String} {rest : List HostAction} (hr : s.resetIn = false)
    (hq : s.seq = .ready) (hh : s.host = .read .w32 off x :: rest) (ho : off.toNat % 4 = 0) :
    Reaches s (readInto off x { s with host := rest }) 0 [] :=
  reaches_host_ready hr hq hh (whenSupported_of ho _)

theorem digestOffset_aligned : ∀ i : Fin 8, (digestOffset i).toNat % 4 = 0 := by decide

/-- The host's reads of DIGESTi run to their end and leave the engine as it is. -/
theorem reaches_digest_reads (is : List (Fin 8)) (var : String) {s : State} (hr : s.resetIn = false)
    (hq : s.seq = .ready) (hh : s.host = is.map fun i => .read .w32 (digestOffset i) (digestVar var i)) :
    ∃ t, t.host = [] ∧ t = beside t s ∧ Reaches s t 0 [] := by
  induction is generalizing s with
  | nil => exact ⟨s, hh, rfl, .refl s⟩
  | cons i is ih =>
    obtain ⟨t, ht, hframe, hreach⟩ := ih (s := readInto (digestOffset i) (digestVar var i) { s with host := _ }) hr hq rfl
    exact ⟨t, ht, hframe, (reaches_read hr hq hh (digestOffset_aligned i)).trans hreach⟩

/-! ### After the first i bytes -/

/-- The engine waits with the first i bytes of M absorbed: the full blocks are compressed, and the rest is in the
buffer. -/
structure Absorbed (M : List Byte) (i : Nat) (s : State) : Prop where
  ready    : s.seq = .ready
  released : s.resetIn = false
  phase    : s.phase = .absorb
  noError  : s.err = .none
  noLenblk : s.lenblk = false
  notFinal : s.final = false
  count    : s.n = i % 64
  length   : s.L = BitVec.ofNat 64 (8 * i)
  bytes    : ∀ j : Fin 64, j.val < i % 64 → s.buf[j] = (padBlock M (i / 64))[j]
  hash     : s.H = chain M (i / 64)

/-- What is absorbed is a matter of the engine alone. -/
theorem Absorbed.beside {M : List Byte} {i : Nat} {s : State} (h : Absorbed M i s) (p : State) :
    Absorbed M i (beside p s) := { h with }

theorem Absorbed.withHost {M : List Byte} {i : Nat} {s : State} (h : Absorbed M i s) (as : List HostAction) :
    Absorbed M i { s with host := as } := { h with }

theorem absorbed_startTransaction (M : List Byte) {s : State} (hr : s.resetIn = false) (hq : s.seq = .ready) :
    Absorbed M 0 (startTransaction s) where
  ready    := hq
  released := hr
  phase    := rfl
  noError  := rfl
  noLenblk := rfl
  notFinal := rfl
  count    := rfl
  length   := rfl
  bytes    := by intro j hj; omega
  hash     := rfl

section absorb
variable {M : List Byte} {i : Nat} {s : State} (h : Absorbed M i s) (hi : i < M.length)
include h

/-- ABSORB of byte i puts it where pad(M) has it. -/
theorem Absorbed.bytes_absorbByte (j : Fin 64) (hj : j.val < i % 64 + 1) :
    (absorbByte M[i] s).buf[j] = (padBlock M (i / 64))[j] := by
  rw [absorbByte_buf, getElem_setIfInBounds, h.count]
  by_cases hlast : j.val = i % 64
  · have hbyte : (pad M)[i]? = some M[i] := (pad_message M hi).trans (List.getElem?_eq_getElem hi)
    rw [if_pos hlast]
    exact (padBlock_of_getElem? hbyte (by omega)).symm
  · rw [if_neg hlast]
    exact h.bytes j (by omega)

theorem Absorbed.length_absorbByte (b : Byte) : (absorbByte b s).L = BitVec.ofNat 64 (8 * (i + 1)) := by
  rw [absorbByte_L, h.length, Nat.mul_succ, BitVec.ofNat_add]
  rfl

theorem Absorbed.seq_absorbByte (b : Byte) : (absorbByte b s).seq = if i % 64 = 63 then .load else .ready := by
  rw [absorbByte_seq, h.count, h.ready]
  by_cases hfull : i % 64 = 63
  · rw [if_pos hfull, if_pos (by omega)]
  · rw [if_neg hfull, if_neg (by omega)]

/-- A byte that does not fill the block. -/
theorem Absorbed.after_inside (hroom : i % 64 ≠ 63) : Absorbed M (i + 1) (absorbByte M[i] s) := by
  have hdiv : (i + 1) / 64 = i / 64 := by omega
  have hmod : (i + 1) % 64 = i % 64 + 1 := by omega
  exact {
    ready    := (h.seq_absorbByte _).trans (if_neg hroom)
    released := h.released
    phase    := h.phase
    noError  := h.noError
    noLenblk := h.noLenblk
    notFinal := h.notFinal
    count    := by rw [absorbByte_n, h.count, hmod]
    length   := h.length_absorbByte _
    bytes    := by rw [hdiv, hmod]; exact h.bytes_absorbByte hi
    hash     := by rw [hdiv]; exact h.hash }

/-- The byte that fills the block: LOAD finds a block of pad(M). -/
theorem Absorbed.buf_absorbByte_full (hfull : i % 64 = 63) : (absorbByte M[i] s).buf = padBlock M (i / 64) :=
  Vector.ext fun j hj => h.bytes_absorbByte hi ⟨j, hj⟩ (by dsimp only; omega)

/-- The busy period after the byte that fills the block. -/
theorem Absorbed.after_full (hfull : i % 64 = 63) : Absorbed M (i + 1) (engineStep^[66] (absorbByte M[i] s)) := by
  set c := absorbByte M[i] s with hc
  have hload : c.seq = .load := (h.seq_absorbByte _).trans (if_pos hfull)
  have hl : c.lenblk = false := h.noLenblk
  have hf : c.final = false := h.notFinal
  have hdiv : (i + 1) / 64 = i / 64 + 1 := by omega
  have hmod : (i + 1) % 64 = 0 := by omega
  obtain ⟨hready, hn, hphase⟩ := block_to_ready hload hl
  obtain ⟨hlenblk, hfinal⟩ := block_to_ready_flags hload hl
  exact {
    ready    := hready
    released := by rw [engineStep_iterate_resetIn]; exact h.released
    phase    := by rw [hphase, hf]; exact h.phase
    noError  := by rw [engineStep_iterate_err]; exact h.noError
    noLenblk := hlenblk
    notFinal := hfinal
    count    := by rw [hn, hmod]
    length   := by rw [engineStep_iterate_L]; exact h.length_absorbByte _
    bytes    := by intro j hj; omega
    hash     := by
      rw [block_H hload, hc, h.buf_absorbByte_full hi hfull, blockWords_padBlock, absorbByte_H, h.hash, hdiv]
      rfl }

end absorb

/-! ### The message -/

/-- The blocks of pad(M) before block q. -/
def blocksBefore (M : List Byte) (q : Nat) : List (Vector Byte 64) := (List.range q).map (padBlock M)

theorem blocksBefore_succ (M : List Byte) (q : Nat) : blocksBefore M (q + 1) = blocksBefore M q ++ [padBlock M q] := by
  rw [blocksBefore, List.range_succ, List.map_append]; rfl

/-- The length limit is not reached before the last of at most 2^61 − 1 bytes. -/
theorem Absorbed.below_limit {M : List Byte} {i : Nat} {s : State} (h : Absorbed M i s) (hi : i < M.length)
    (hM : M.length ≤ 2 ^ 61 - 1) : s.L ≠ maxLength := by
  rw [ne_eq, maxLength_toNat, h.length, BitVec.toNat_ofNat]
  omega

/-- ABSORB of byte i and its WAIT. -/
theorem reaches_absorb {M : List Byte} {i : Nat} {s0 s : State} {rest : List HostAction} (h : Absorbed M i s)
    (hi : i < M.length) (hM : M.length ≤ 2 ^ 61 - 1) (hh : s.host = command (.absorb M[i]) :: .wait :: rest)
    (hreach : Reaches s0 s (66 * (i / 64)) (blocksBefore M (i / 64))) :
    ∃ t, Absorbed M (i + 1) t ∧ t.host = rest ∧
      Reaches s0 t (66 * ((i + 1) / 64)) (blocksBefore M ((i + 1) / 64)) := by
  have hp := h.withHost (.wait :: rest)
  set p : State := { s with host := .wait :: rest }
  set c := absorbByte M[i] p
  have hcommand : Reaches s0 c (66 * (i / 64)) (blocksBefore M (i / 64)) := by
    have hexec := exec_absorb hp.ready hp.phase (hp.below_limit hi hM) M[i]
    simpa using hreach.trans (reaches_command h.released h.ready hh hexec)
  by_cases hfull : i % 64 = 63
  · have hload : c.seq = .load := (hp.seq_absorbByte _).trans (if_pos hfull)
    have hl : c.lenblk = false := hp.noLenblk
    have hpending : pendingBlocks c = [padBlock M (i / 64)] := by
      rw [pendingBlocks, hl, hp.buf_absorbByte_full hi hfull]; rfl
    obtain ⟨q, hq, hwait⟩ := reaches_wait_busyPeriod (s := c) hp.released hload rfl
    rw [hpending, hl] at hwait
    refine ⟨_, (hp.after_full hi hfull).beside q, hq, ?_⟩
    rw [show (i + 1) / 64 = i / 64 + 1 by omega, blocksBefore_succ]
    exact hcommand.trans hwait
  · have hinside := hp.after_inside hi hfull
    obtain ⟨q, hq, hwait⟩ := reaches_wait_ready (s := c) hp.released hinside.ready rfl
    refine ⟨_, hinside.beside q, hq, ?_⟩
    rw [show (i + 1) / 64 = i / 64 by omega]
    simpa using hcommand.trans hwait

/-- The ABSORBs of the first i bytes, each with its WAIT. -/
theorem reaches_absorbs {M : List Byte} {s0 : State} {rest : List HostAction} (h : Absorbed M 0 s0)
    (hM : M.length ≤ 2 ^ 61 - 1) (hh : s0.host = absorbsExpansion M ++ rest) {i : Nat} (hi : i ≤ M.length) :
    ∃ t, Absorbed M i t ∧ t.host = absorbsExpansion (M.drop i) ++ rest ∧
      Reaches s0 t (66 * (i / 64)) (blocksBefore M (i / 64)) := by
  induction i with
  | zero => exact ⟨s0, h, hh, .refl s0⟩
  | succ i ih =>
    obtain ⟨s, hs, hhost, hreach⟩ := ih (by omega)
    rw [List.drop_eq_getElem_cons hi] at hhost
    exact reaches_absorb hs hi hM hhost hreach

/-! ### FINISH -/

/-- The transaction of message M has ended without an error. -/
structure Completed (M : List Byte) (s : State) : Prop where
  ready    : s.seq = .ready
  released : s.resetIn = false
  phase    : s.phase = .done
  noError  : s.err = .none
  empty    : s.n = 0
  length   : s.L = BitVec.ofNat 64 (8 * M.length)
  hash     : s.H = sha256Words M

theorem Completed.beside {M : List Byte} {s : State} (h : Completed M s) (p : State) : Completed M (beside p s) :=
  { h with }

/-- Compressing the blocks of pad(M) one after the other is the chain. -/
theorem compressBlocks_blocksBefore (M : List Byte) (q : Nat) :
    compressBlocks Rom.IV (blocksBefore M q) = chain M q := by
  induction q with
  | zero => rfl
  | succ q ih =>
    rw [blocksBefore_succ, compressBlocks_append, ih, chain, ← blockWords_padBlock]
    rfl

section finish
variable {M : List Byte} {s : State} (h : Absorbed M M.length s)
include h

/-- FINISH leaves in the buffer the block of pad(M) with the marker, and the length block pending where there is one
more. -/
theorem Absorbed.pendingBlocks_finish :
    blocksBefore M (M.length / 64) ++ pendingBlocks (finishMessage s) = blocksBefore M (blockCount M) := by
  have hbuf : (finishMessage s).buf = padBlock M (M.length / 64) := by
    rw [finishMessage_buf, h.count, h.length]
    exact paddedBuf_eq_padBlock h.bytes
  rw [pendingBlocks, hbuf, finishMessage_lenblk, finishMessage_L, h.count, h.length, lastRoomForLength]
  by_cases hroom : M.length % 64 ≤ 55
  · rw [if_neg (by simpa using hroom), blockCount_of_room hroom, blocksBefore_succ]
  · have hnoRoom : 56 ≤ M.length % 64 := by omega
    rw [if_pos (by simpa using hroom), lengthBlockBuf_eq_padBlock hnoRoom, blockCount_of_noRoom hnoRoom,
      blocksBefore_succ, blocksBefore_succ, List.append_assoc]
    rfl

/-- The engine takes 66 steps for each of FINISH's blocks. -/
theorem Absorbed.busySteps_finish :
    66 * (M.length / 64) + busySteps (finishMessage s).lenblk = 66 * blockCount M := by
  rw [busySteps_finishMessage, h.count]
  by_cases hroom : M.length % 64 ≤ 55
  · rw [if_pos hroom, blockCount_of_room hroom]; omega
  · rw [if_neg hroom, blockCount_of_noRoom (by omega)]; omega

theorem Absorbed.after_finish :
    Completed M (engineStep^[busySteps (finishMessage s).lenblk] (finishMessage s)) := by
  have hload := finishMessage_seq s
  obtain ⟨hready, hn, hphase⟩ := busyPeriod_end hload
  exact {
    ready    := hready
    released := by rw [engineStep_iterate_resetIn, finishMessage_resetIn]; exact h.released
    phase    := by rw [hphase, finishMessage_final, if_pos rfl]
    noError  := by rw [engineStep_iterate_err, finishMessage_err]; exact h.noError
    empty    := hn
    length   := by rw [engineStep_iterate_L, finishMessage_L]; exact h.length
    hash     := by
      rw [busyPeriod_H hload, finishMessage_H, h.hash, ← compressBlocks_blocksBefore, ← compressBlocks_append,
        h.pendingBlocks_finish]
      exact compressBlocks_blocksBefore M (blockCount M) }

/-- FINISH and its WAIT. -/
theorem reaches_finish {s0 : State} {rest : List HostAction} (hh : s.host = command .finish :: .wait :: rest)
    (hreach : Reaches s0 s (66 * (M.length / 64)) (blocksBefore M (M.length / 64))) :
    ∃ t, Completed M t ∧ t.host = rest ∧ Reaches s0 t (66 * blockCount M) (blocksBefore M (blockCount M)) := by
  have hp := h.withHost (.wait :: rest)
  set p : State := { s with host := .wait :: rest }
  have hcommand := reaches_command h.released h.ready hh (exec_finish hp.ready hp.phase)
  obtain ⟨q, hq, hwait⟩ := reaches_wait_busyPeriod (s := finishMessage p) (rest := rest)
    ((finishMessage_resetIn p).trans hp.released) (finishMessage_seq p) (finishMessage_host p)
  refine ⟨_, hp.after_finish.beside q, hq, ?_⟩
  have htotal := hreach.trans (hcommand.trans hwait)
  rwa [Nat.zero_add, List.nil_append, hp.busySteps_finish, hp.pendingBlocks_finish] at htotal

end finish

/-! ### The whole transaction -/

/-- HASH M up to its digest reads, from any state with BUSY = 0 and under any schedule. -/
theorem reaches_completed {M : List Byte} {var : String} {s : State} (hM : M.length ≤ 2 ^ 61 - 1) (hq : s.seq = .ready)
    (hr : s.resetIn = false) (hh : s.host = (AsmOp.hash M var).expand) :
    ∃ t, Completed M t ∧ t.host = readDigestExpansion var ∧
      Reaches s t (66 * blockCount M) (blocksBefore M (blockCount M)) := by
  set finishing := command .finish :: .wait :: readDigestExpansion var with hfinishing
  have hh : s.host = .wait :: command .init :: (absorbsExpansion M ++ finishing) := by
    rw [hh, AsmOp.expand, hfinishing]; simp only [List.append_assoc, List.cons_append, List.nil_append]
  obtain ⟨p, hp, hwait⟩ := reaches_wait_ready hr hq hh
  set u : State := { beside p s with host := absorbsExpansion M ++ finishing }
  have hopen : Reaches s (startTransaction u) 0 [] :=
    hwait.trans (reaches_command hr hq hp (exec_init (s := u) hq))
  obtain ⟨v, hv, hhost, habsorbs⟩ :=
    reaches_absorbs (absorbed_startTransaction M (s := u) hr hq) hM rfl (le_refl M.length)
  rw [List.drop_length] at hhost
  have hmessage := hopen.trans habsorbs
  rw [Nat.zero_add, List.nil_append] at hmessage
  exact reaches_finish hv hhost hmessage

/-- Settles O36: `reaches_completed`, followed by the digest reads, which take no block. -/
theorem loadedBlocksAreThePaddedMessage : Obligations.LoadedBlocksAreThePaddedMessage := by
  intro M var s hM hq hr hh
  obtain ⟨u, hu, hhost, hreach⟩ := reaches_completed hM hq hr hh
  obtain ⟨t, ht, -, hreads⟩ := reaches_digest_reads (List.finRange 8) var hu.released hu.ready hhost
  obtain ⟨k, hrun, -, hblocks⟩ := hreach.trans hreads
  exact ⟨k, t, hrun, ht, hblocks.trans (List.append_nil _)⟩

end Sys2Proof.Machine
end

section
/-! PROOFS. The engine's step by the sequencer (42_schedule.md R140 to R142): the step that each value of seq names, and the
order in which they follow one another. -/

namespace Sys2Proof.Machine

/-! ### The step that seq names -/

theorem engineStep_of_ready {s : State} (h : s.seq = .ready) : engineStep s = s := by simp [engineStep, h]

theorem engineStep_of_load {s : State} (h : s.seq = .load) : engineStep s = loadStep s := by simp [engineStep, h]

theorem engineStep_of_round {s : State} {r : Fin 64} (h : s.seq = .round r) : engineStep s = roundStep r s := by
  simp [engineStep, h]

theorem engineStep_of_fold {s : State} (h : s.seq = .fold) : engineStep s = foldStep s := by simp [engineStep, h]

/-- Settles O20: who moves by `mover_engine`, the step by the value of seq. -/
theorem engineStepsExactlyWhenBusy : Obligations.EngineStepsExactlyWhenBusy := by
  refine ⟨fun s hr hm => ⟨busy_eq_true.mp (mover_engine.mp hm).1, step_engine hr hm⟩, fun s hq hh => ?_, fun s hq ht => ?_,
    fun s => engineStep_of_ready, fun s => engineStep_of_load, fun s r => engineStep_of_round,
    fun s => engineStep_of_fold⟩
  · exact mover_engine.mpr ⟨busy_eq_true.mpr hq, .inl hh⟩
  · exact mover_engine.mpr ⟨busy_eq_true.mpr hq, .inr (.inl ht)⟩

/-! ### LOAD -/

/-- W after LOAD: the block's big-endian words, and beyond them what stood there. -/
theorem loadedW_block (buf : Vector Byte 64) (W : Vector Word 64) (j : Fin 16) : (loadedW buf W)[j.val] =
    buf[4 * j.val] ++ buf[4 * j.val + 1] ++ buf[4 * j.val + 2] ++ buf[4 * j.val + 3] := by
  rw [loadedW, Vector.getElem_ofFn, dif_pos j.isLt, blockWord, be32_eq]

theorem loadedW_rest (buf : Vector Byte 64) (W : Vector Word 64) {j : Fin 64} (h : 16 ≤ j.val) :
    (loadedW buf W)[j] = W[j] := by
  rw [Fin.getElem_fin, loadedW, Vector.getElem_ofFn, dif_neg (by dsimp only; omega)]

/-- Settles O21: the step is `loadStep`, its W word by word. -/
theorem loadTakesTheBlock : Obligations.LoadTakesTheBlock := by
  intro s hq
  refine ⟨loadStep s, engineStep_of_load hq, ?_, fun j => ?_, fun j hj => ?_⟩
  · rw [loadStep, loadedVars]
  · rw [loadStep_W, loadedW_block]
  · rw [loadStep_W, loadedW_rest _ _ hj]

/-! ### The order of the steps -/

theorem afterRound_of_lt {r : Fin 64} (h : r.val < 63) : afterRound r = .round ⟨r.val + 1, by omega⟩ := dif_pos h

theorem afterRound_last {r : Fin 64} (h : r.val = 63) : afterRound r = .fold := dif_neg (by omega)

/-- A host action answered while the engine is busy writes the host's side and the reset input alone. -/
theorem hostAction_busy_frame {a : HostAction} {s t : State} (hb : s.busy = true) (h : hostAction a s = .next t) :
    t = { s with host := t.host, vars := t.vars, draws := t.draws, resetIn := t.resetIn } := by
  obtain ⟨off, x, -, -, rfl⟩ | ⟨off, v, -, -, -, rfl⟩ | ⟨v, -, hc⟩ | ⟨-, rfl⟩ | ⟨-, rfl⟩ := hostAction_next h
  · rfl
  · rfl
  · rw [commandWrite_busy hb] at hc; cases hc
  · rw [pollStatus_frame]
  · rfl

/-- A host step while the engine is busy uses up a turn of the schedule, and leaves the engine as it is. -/
theorem step_host_busy_frame {s t : State} (hr : s.resetIn = false) (hb : s.busy = true) (hm : mover s = some .host)
    (h : step s = .next t) : t = { s with
      host := t.host, vars := t.vars, turns := s.turns.tail, draws := t.draws, resetIn := t.resetIn } := by
  obtain ⟨a, as, hh⟩ := List.exists_cons_of_ne_nil (mover_host.mp hm).1
  rw [step_host hr hm hh, if_pos hb] at h
  set p : State := { s with host := as, turns := s.turns.tail }
  exact hostAction_busy_frame (s := p) hb h

/-- What begins a compression: the ABSORB that fills the block, or FINISH (R141). -/
theorem compression_start {s t : State} (hr : s.resetIn = false) (h : step s = .next t) (hq : s.seq = .ready)
    (ht : t.seq ≠ .ready) : t.seq = .load ∧ s.phase = .absorb ∧
      ((s.n = 63 ∧ ∃ b, s.host.head? = some (.write .w32 0x00 (encode (.absorb b)))) ∨
        s.host.head? = some (.write .w32 0x00 (encode .finish))) := by
  cases step_effect h with
  | reset hr' _ => simp [hr] at hr'
  | engine hm _ => exact absurd hq (busy_eq_true.mp (mover_engine.mp hm).1)
  | init as _ _ he => exact absurd hq (by simpa [he] using ht)
  | absorb b as _ hp _ hh he =>
    have hfull : s.n + 1 = 64 := by
      by_contra hroom
      exact ht (by simp [he, hroom, hq])
    exact ⟨by simp [he, hfull], hp, .inl ⟨by omega, b, by rw [hh]; rfl⟩⟩
  | finish as _ hp hh he => exact ⟨by rw [he, finishMessage_seq], hp, .inr (by rw [hh]; rfl)⟩
  | raised c as _ _ he => exact absurd hq (by simpa [he] using ht)
  | hostSide he => exact absurd hq (by rw [he] at ht; exact ht)

/-- Settles O24: the host leaves seq alone while the engine is busy, each engine step names the next, and
`compression_start` says what leaves READY. -/
theorem blockIterationOrder : Obligations.BlockIterationOrder := by
  intro s t hr h
  have hengine (hm : mover s = some .engine) : t = engineStep (takeTurn s) := by
    rw [step_engine hr hm] at h; cases h; rfl
  refine ⟨fun hb hm => ?_, fun hq hm => ?_, fun r hq hm => ?_, fun hq hm => ?_, fun hq ht => ?_⟩
  · rw [step_host_busy_frame hr hb hm h]
  · rw [hengine hm, engineStep_of_load ((takeTurn_seq s).trans hq)]
    exact ⟨loadStep_seq _, by rw [loadStep_wv, takeTurn_H, loadedVars]⟩
  · rw [hengine hm, engineStep_of_round ((takeTurn_seq s).trans hq), roundStep_seq]
    exact ⟨afterRound_of_lt, afterRound_last⟩
  · rw [hengine hm, engineStep_of_fold ((takeTurn_seq s).trans hq), foldStep_seq, takeTurn_lenblk]
  · obtain ⟨hload, hp, ⟨hn, b, hh⟩ | hh⟩ := compression_start hr h hq ht
    · exact ⟨hload, hp, .inl ⟨hn, b, by rw [hh, encode_absorb]⟩⟩
    · exact ⟨hload, hp, .inr hh⟩

end Sys2Proof.Machine
end

section
/-! PROOFS. A block and a busy period by number of steps (42_schedule.md R140, R149), with nothing pending at the host and
under any schedule. -/

namespace Sys2Proof.Machine

open Sys2Proof.Reference

/-- Settles O29: the schedule's two equations, and `InRounds` after LOAD and t + 1 rounds. -/
theorem roundsReadTheSchedule : Obligations.RoundsReadTheSchedule := by
  refine ⟨fun B t => schedule_low B t t.isLt, fun B t h _ => schedule_high B t h, fun s t hq hr hh => ?_⟩
  obtain ⟨hin, -⟩ := inRounds_iterate hq (t := t.val + 1) (by omega)
  exact ⟨_, run_alone hr hh (t.val + 2), hin.sched t t.isLt (.inr (by omega)), hin.vars⟩

/-- Settles O31: `busyPeriod_end` and `busyPeriod_running`, the engine being alone. -/
theorem busyPeriodLength : Obligations.BusyPeriodLength := by
  intro s hq hr hh
  rw [← busySteps]
  obtain ⟨hready, -, -⟩ := busyPeriod_end hq
  exact ⟨⟨_, run_alone hr hh _, busy_eq_false.mpr hready⟩,
    fun k hk => ⟨_, run_alone hr hh k, (busyPeriod_running hq hk).1⟩⟩

/-! ### The end of a busy period under any schedule -/

/-- How many steps of the current block are still to come. -/
def Seq.stepsLeft : Seq → Nat
  | .ready   => 0
  | .load    => 66
  | .round r => 65 - r.val
  | .fold    => 1

/-- How many engine steps a busy engine is from READY: those of the current block and of a pending length block. -/
def engineStepsLeft (s : State) : Nat := s.seq.stepsLeft + if s.lenblk then 66 else 0

theorem stepsLeft_afterRound (r : Fin 64) : (afterRound r).stepsLeft + 1 = (Seq.round r).stepsLeft := by
  by_cases h : r.val < 63
  · rw [afterRound_of_lt h]; simp only [Seq.stepsLeft]; omega
  · rw [afterRound_last (by omega)]; simp only [Seq.stepsLeft]; omega

/-- Each engine step brings READY one step nearer. -/
theorem engineStepsLeft_engineStep {s : State} (hb : s.busy = true) :
    engineStepsLeft (engineStep s) + 1 = engineStepsLeft s := by
  match hq : s.seq with
  | .ready => simp [busy_eq, hq] at hb
  | .load =>
    have hload : (Seq.round 0).stepsLeft + 1 = Seq.load.stepsLeft := rfl
    rw [engineStep_of_load hq, engineStepsLeft, engineStepsLeft, hq, loadStep_seq, loadStep_lenblk]
    omega
  | .round r =>
    have hround := stepsLeft_afterRound r
    rw [engineStep_of_round hq, engineStepsLeft, engineStepsLeft, hq, roundStep_seq, roundStep_lenblk]
    omega
  | .fold =>
    rw [engineStep_of_fold hq, engineStepsLeft, engineStepsLeft, hq, foldStep_seq, foldStep_lenblk]
    cases s.lenblk <;> simp [Seq.stepsLeft]

theorem engineStepsLeft_le (s : State) : engineStepsLeft s ≤ 132 := by
  have hblock : s.seq.stepsLeft ≤ 66 := by cases s.seq <;> simp only [Seq.stepsLeft] <;> omega
  unfold engineStepsLeft; split <;> omega

/-- A busy step without a reset uses up an engine step of the busy period or a turn of the schedule. -/
theorem step_busy_decreases {s t : State} (hr : s.resetIn = false) (hb : s.busy = true) (h : step s = .next t) :
    engineStepsLeft t + t.turns.length < engineStepsLeft s + s.turns.length := by
  match hm : mover s with
  | none => simp [(mover_none.mp hm).1] at hb
  | some .engine =>
    rw [step_engine hr hm] at h
    cases h
    have hleft := engineStepsLeft_engineStep ((takeTurn_busy s).trans hb)
    have hsame : engineStepsLeft (takeTurn s) = engineStepsLeft s := by
      rw [engineStepsLeft, engineStepsLeft, takeTurn_seq, takeTurn_lenblk]
    have hturns : (engineStep (takeTurn s)).turns.length ≤ s.turns.length := by
      rw [engineStep_turns, takeTurn_turns]; split <;> simp
    omega
  | some .host =>
    have hframe := step_host_busy_frame hr hb hm h
    have hsame : engineStepsLeft t = engineStepsLeft s := by rw [hframe]; rfl
    obtain ⟨us, hus⟩ := List.head?_eq_some_iff.mp ((mover_host.mp hm).2 hb)
    have hturns : t.turns.length + 1 = s.turns.length := by rw [hframe, hus]; rfl
    omega

/-- A safe state has a next state, which is safe. -/
theorem safeFrom_step {s : State} (h : SafeFrom s) : ∃ t, step s = .next t ∧ SafeFrom t := by
  obtain ⟨t, ht⟩ := h 1
  have hstep : step s = .next t := by
    rw [run_succ] at ht
    cases hs : step s with
    | next u => rw [hs] at ht; exact ht
    | fault r => rw [hs] at ht; cases ht
    | refused r => rw [hs] at ht; cases ht
  refine ⟨t, hstep, fun k => ?_⟩
  obtain ⟨u, hu⟩ := h (1 + k)
  exact ⟨u, (run_add 1 k s t ht).symm.trans hu⟩

theorem run_succ_of_step {s t : State} (h : step s = .next t) (k : Nat) : run (k + 1) s = run k t := by
  rw [run_succ, h]

/-- A run that does not stop reaches BUSY = 0 within the engine's steps, the turns of the schedule and one reset. -/
theorem busy_ends {s : State} (h : SafeFrom s) :
    ∃ k t, k ≤ engineStepsLeft s + s.turns.length + 1 ∧ run k s = .next t ∧ t.busy = false := by
  induction hm : engineStepsLeft s + s.turns.length using Nat.strong_induction_on generalizing s with
  | _ m ih =>
    subst hm
    cases hb : s.busy with
    | false => exact ⟨0, s, by omega, rfl, hb⟩
    | true =>
      cases hr : s.resetIn with
      | true => exact ⟨1, hardwareReset s, by omega, run_succ_of_step (step_reset hr) 0, rfl⟩
      | false =>
        obtain ⟨t, hstep, ht⟩ := safeFrom_step h
        have hless := step_busy_decreases hr hb hstep
        obtain ⟨k, u, hk, hrun, hu⟩ := ih _ hless ht rfl
        exact ⟨k + 1, u, by omega, (run_succ_of_step hstep k).trans hrun, hu⟩

/-- Settles O32: `busy_ends`, the engine being at most 132 steps from READY. -/
theorem everyBusyPeriodEnds : Obligations.EveryBusyPeriodEnds := by
  intro s h
  obtain ⟨k, t, hk, hrun, hb⟩ := busy_ends h
  have hle := engineStepsLeft_le s
  exact ⟨k, t, by omega, hrun, hb⟩

end Sys2Proof.Machine
end

section
/-! PROOFS. The rotations, the shift and the four sigma functions bit by bit (42_schedule.md R144 to R147,
43_compression.md R160, R161). -/

namespace Sys2Proof.Machine

/-- The two shifts of a rotation bring their bits to different places. -/
theorem rotr_getLsbD {n : Nat} (x : Word) {i : Nat} (h1 : 1 ≤ n) (h31 : n ≤ 31) (hi : i < 32) :
    (rotr n x).getLsbD i = x.getLsbD ((i + n) % 32) := by
  rw [rotr, BitVec.getLsbD_or, BitVec.getLsbD_ushiftRight, BitVec.getLsbD_shiftLeft]
  by_cases hlow : i < 32 - n
  · have hmod : (i + n) % 32 = n + i := by omega
    simp [hlow, hmod]
  · have hmod : (i + n) % 32 = i - (32 - n) := by omega
    have hover := BitVec.getLsbD_of_ge x (n + i) (by omega)
    simp [hlow, hmod, hover, hi]

theorem shr_getLsbD (n : Nat) (x : Word) (i : Nat) :
    (shr n x).getLsbD i = if i + n < 32 then x.getLsbD (i + n) else false := by
  rw [shr, BitVec.getLsbD_ushiftRight, Nat.add_comm n i]
  split
  · rfl
  · exact BitVec.getLsbD_of_ge x (i + n) (by omega)

/-- A bit of the shift, m being the number of bits that stay. -/
theorem shr_getLsbD_kept {n m : Nat} (hm : m + n = 32) (x : Word) (i : Nat) :
    (shr n x).getLsbD i = (decide (i < m) && x.getLsbD (i + n)) := by
  rw [shr_getLsbD]
  by_cases h : i < m
  · rw [if_pos (by omega), decide_eq_true h, Bool.true_and]
  · rw [if_neg (by omega), decide_eq_false h, Bool.false_and]

/-- Settles O25, by the bits of the rotation and of the shift. -/
theorem rotationAndShiftBits : Obligations.RotationAndShiftBits :=
  ⟨fun _ x _ h1 h31 hi => rotr_getLsbD x h1 h31 hi, fun n x i _ => shr_getLsbD n x i⟩

/-- Settles O26: the bits of the rotations and the shift, each function's three. -/
theorem sigmaFunctionBits : Obligations.SigmaFunctionBits := by
  intro x i hi
  have hrot (n : Nat) (h : 1 ≤ n ∧ n ≤ 31) : (rotr n x).getLsbD i = x.getLsbD ((i + n) % 32) :=
    rotr_getLsbD x h.1 h.2 hi
  refine ⟨?_, ?_, ?_, ?_⟩
  · rw [smallSigma0, BitVec.getLsbD_xor, BitVec.getLsbD_xor, hrot 7 (by decide), hrot 18 (by decide),
      shr_getLsbD_kept (m := 29) rfl]
  · rw [smallSigma1, BitVec.getLsbD_xor, BitVec.getLsbD_xor, hrot 17 (by decide), hrot 19 (by decide),
      shr_getLsbD_kept (m := 22) rfl]
  · rw [bigSigma0, BitVec.getLsbD_xor, BitVec.getLsbD_xor, hrot 2 (by decide), hrot 13 (by decide), hrot 22 (by decide)]
  · rw [bigSigma1, BitVec.getLsbD_xor, BitVec.getLsbD_xor, hrot 6 (by decide), hrot 11 (by decide), hrot 25 (by decide)]

end Sys2Proof.Machine
end

section
/-! PROOFS. The compression engine (43_compression.md): FOLD and what becomes of one block, ROUND(t), Ch and Maj bit by bit,
and the word sums. -/

namespace Sys2Proof.Machine

/-! ### FOLD and one block -/

/-- FOLD's second part, its three outcomes in one equation (R169). -/
theorem continueOrStop_frame (s : State) : continueOrStop s =
    { s with
      buf    := if s.lenblk then lengthBlockBuf s.L else s.buf
      lenblk := false
      final  := s.final && s.lenblk
      phase  := if s.lenblk = false ∧ s.final = true then .done else s.phase
      seq    := if s.lenblk then .load else .ready } := by
  cases hl : s.lenblk with
  | true => simp [continueOrStop, lengthBlock, hl]
  | false => cases hf : s.final <;> simp [continueOrStop, hl, hf]

/-- The length block, byte by byte (R124). -/
theorem lengthBlockBuf_get (L : BitLength) (j : Fin 64) :
    (lengthBlockBuf L)[j] = if j.val ≤ 55 then 0x00#8 else L.extractLsb' (56 - 8 * (j.val - 56)) 8 := by
  rw [Fin.getElem_fin, lengthBlockBuf, Vector.getElem_ofFn]
  by_cases h : j.val ≤ 55
  · rw [if_neg (by dsimp only; omega), if_pos h]; rfl
  · rw [if_pos (by dsimp only; omega), if_neg h, be64byte]

/-- Settles O30: `block_result`, the engine being alone, with FOLD's second part by `continueOrStop_frame`. -/
theorem oneBlockIsCompressed : Obligations.OneBlockIsCompressed := by
  intro s hq hr hh
  obtain ⟨W, v, hres⟩ := block_result hq
  rw [continueOrStop_frame] at hres
  refine ⟨_, (run_alone hr hh 66).trans (congrArg _ hres), rfl, rfl, rfl, rfl, hr, hh, rfl, rfl, rfl,
    fun hl => ?_, fun hl => ?_⟩
  · simp [hl]
  · simp [hl]

/-- Settles O23: the step is `foldStep`, its second part by `continueOrStop_frame`. -/
theorem foldStepResult : Obligations.FoldStepResult := by
  intro s hq
  have hstep := engineStep_of_fold hq
  rw [foldStep, continueOrStop_frame] at hstep
  refine ⟨_, hstep, rfl, rfl, rfl, rfl, rfl, rfl, rfl, rfl, fun hl => ⟨?_, fun j => ?_⟩, fun hl hf => ?_, fun hl hf => ?_⟩
  · simp [hl]
  · simp only [hl, if_true]; exact lengthBlockBuf_get s.L j
  · simp [hl, hf]
  · simp [hl, hf]

/-! ### ROUND(t) -/

/-- Settles O22: the step is `roundStep`, with W[t] by `expand_get`. -/
theorem roundStepResult : Obligations.RoundStepResult := by
  intro s t hq
  refine ⟨roundStep t s, (expand t s.W)[t], _, _, engineStep_of_round hq, ?_, rfl, rfl, rfl, rfl, fun j hj => ?_,
    afterRound_of_lt, afterRound_last⟩
  · simp only [expand_get, and_true, expandedWord]
  · rw [roundStep_W, expand_get, if_neg fun hc => hj hc.2]

/-! ### Ch and Maj -/

/-- Settles O27: one bit of each function is a function of three bits. -/
theorem chooseAndMajorityBits : Obligations.ChooseAndMajorityBits := by
  intro x y z i hi
  constructor
  · rw [ch, BitVec.getLsbD_xor, BitVec.getLsbD_and, BitVec.getLsbD_and, BitVec.getLsbD_not, decide_eq_true hi]
    cases x.getLsbD i <;> simp
  · rw [maj, BitVec.getLsbD_xor, BitVec.getLsbD_xor, BitVec.getLsbD_and, BitVec.getLsbD_and, BitVec.getLsbD_and]
    cases x.getLsbD i <;> cases y.getLsbD i <;> cases z.getLsbD i <;> rfl

/-! ### The sums -/

theorem expandedWord_toNat (W : Vector Word 64) (t : Fin 64) : (expandedWord W t).toNat =
    ((smallSigma1 W[t.val - 2]).toNat + W[t.val - 7].toNat + (smallSigma0 W[t.val - 15]).toNat + W[t.val - 16].toNat)
      % 2 ^ 32 := by
  simp only [expandedWord, BitVec.toNat_add, Nat.mod_add_mod]

theorem roundT1_toNat (k w : Word) (v : WorkVars) : (roundT1 k w v).toNat =
    (v.h.toNat + (bigSigma1 v.e).toNat + (ch v.e v.f v.g).toNat + k.toNat + w.toNat) % 2 ^ 32 := by
  simp only [roundT1, BitVec.toNat_add, Nat.mod_add_mod]

theorem roundT2_toNat (v : WorkVars) : (roundT2 v).toNat =
    ((bigSigma0 v.a).toNat + (maj v.a v.b v.c).toNat) % 2 ^ 32 := BitVec.toNat_add _ _

/-- Only FOLD writes the phase. -/
theorem engineStep_phase {s : State} (h : s.seq ≠ .fold) : (engineStep s).phase = s.phase := by
  match hq : s.seq with
  | .ready => rw [engineStep_of_ready hq]
  | .load => rw [engineStep_of_load hq, loadStep_phase]
  | .round r => rw [engineStep_of_round hq, roundStep_phase]
  | .fold => exact absurd hq h

/-- Settles O28: a sum of words is the sum of their values with one reduction at the end. -/
theorem wordSumsWrap : Obligations.WordSumsWrap := by
  refine ⟨expandedWord_toNat, fun k w v => ⟨?_, ?_⟩, fun H v => ?_, fun s => ⟨engineStep_err s, ?_⟩⟩
  · simp only [roundVars, BitVec.toNat_add, roundT1_toNat, Nat.add_mod_mod, Nat.add_assoc]
  · simp only [roundVars, BitVec.toNat_add, roundT1_toNat, roundT2_toNat, Nat.add_mod_mod, Nat.mod_add_mod, Nat.add_assoc]
  · exact ⟨BitVec.toNat_add _ _, BitVec.toNat_add _ _, BitVec.toNat_add _ _, BitVec.toNat_add _ _, BitVec.toNat_add _ _,
      BitVec.toNat_add _ _, BitVec.toNat_add _ _, BitVec.toNat_add _ _⟩
  · by_cases hq : s.seq = .fold
    · exact .inr hq
    · exact .inl (engineStep_phase hq)

end Sys2Proof.Machine
end

section
/-! PROOFS. The digest (44_digest.md): its bytes (R180), how long DIGESTi keeps it (R181), and the transaction theorem
(R183), which reads it off the completed transaction. -/

namespace Sys2Proof.Machine

open Sys2Proof.Reference

/-! ### The bytes of the digest -/

theorem wordBytes_getElem? (x : Word) (j : Fin 4) :
    (wordBytes x)[j.val]? = some (x.extractLsb' (24 - 8 * j.val) 8) := by
  match j with
  | 0 => rfl
  | 1 => rfl
  | 2 => rfl
  | 3 => rfl

/-- Each word gives four bytes. -/
theorem length_flatMap_wordBytes (ws : List Word) : (ws.flatMap wordBytes).length = 4 * ws.length := by
  induction ws with
  | nil => rfl
  | cons x xs ih => rw [List.flatMap_cons, List.length_append, ih, List.length_cons, Nat.mul_succ, Nat.add_comm]; rfl

/-- The bytes of word i stand at 4i to 4i + 3. -/
theorem flatMap_wordBytes_getElem? (ws : List Word) {i : Nat} (hi : i < ws.length) (j : Fin 4) :
    (ws.flatMap wordBytes)[4 * i + j.val]? = some (ws[i].extractLsb' (24 - 8 * j.val) 8) := by
  induction ws generalizing i with
  | nil => cases hi
  | cons x xs ih =>
    have hlen : (wordBytes x).length = 4 := rfl
    cases i with
    | zero =>
      rw [List.flatMap_cons, Nat.mul_zero, Nat.zero_add, List.getElem?_append_left (by omega)]
      exact wordBytes_getElem? x j
    | succ i =>
      rw [List.flatMap_cons, List.getElem?_append_right (by omega), hlen,
        show 4 * (i + 1) + j.val - 4 = 4 * i + j.val by omega]
      exact ih (Nat.lt_of_succ_lt_succ hi)

theorem length_digestBytes (H : Vector Word 8) : (digestBytes H).length = 32 := by
  rw [digestBytes, length_flatMap_wordBytes, Vector.length_toList]

/-- Settles O37: the bytes of the words H[0] to H[7], four each. -/
theorem digestSerialization : Obligations.DigestSerialization := by
  refine fun H => ⟨length_digestBytes H, fun i j => ?_⟩
  exact flatMap_wordBytes_getElem? H.toList (by rw [Vector.length_toList]; exact i.isLt) j

/-! ### How long DIGESTi keeps the digest -/

/-- Outside phase ABSORB the engine waits. -/
theorem Inv.ready_of_not_absorb {s : State} (h : Inv s) (hp : s.phase ≠ .absorb) : s.seq = .ready := by
  by_contra hq
  exact hp (h.busyAbsorbs (busy_eq_true.mpr hq))

theorem readReg_digest_of_busy {s : State} (hb : s.busy = true) (i : Fin 8) :
    readReg (.digest i) s = Config.freeWord s.draws := if_pos hb

/-- Settles O39: of the writers of H (`hashStateWriters`), FOLD has no turn in phase DONE. -/
theorem digestIsKept : Obligations.DigestIsKept := by
  refine ⟨fun s hi hp => ?_, fun s i hb => readReg_digest_of_busy hb i⟩
  have hq : s.seq = .ready := hi.ready_of_not_absorb (by simp [hp])
  refine ⟨busy_eq_false.mpr hq, readReg_digest_of_ready hq, fun t h => ?_⟩
  cases hr : s.resetIn with
  | true => exact .inr (.inl rfl)
  | false =>
    obtain hkept | ⟨-, hinit, -⟩ | ⟨hfold, -, -⟩ := hashStateWriters s t hr h
    · exact .inl hkept
    · exact .inr (.inr hinit)
    · simp [hq] at hfold

/-! ### The host's reads of the digest -/

theorem windowReg_digestOffset : ∀ i : Fin 8, windowReg (digestOffset i) = .digest i := by decide

/-- The variables d0 ... d7 are eight. -/
theorem digestVar_injective (var : String) : Function.Injective (digestVar var) := by
  have hdigit : ∀ i j : Fin 8,
      String.singleton (Char.ofNat (48 + i)) = String.singleton (Char.ofNat (48 + j)) → i = j := by decide
  intro i j h
  exact hdigit i j ((String.append_right_inj var).mp h)

/-- Reading DIGESTi gives its variable H[i] and leaves the variables of the other words. -/
theorem getVar_digest_read {s : State} (hq : s.seq = .ready) (var : String) (i j : Fin 8) :
    getVar (digestVar var j) (readInto (digestOffset i) (digestVar var i) s) =
      if j = i then some s.H[i] else getVar (digestVar var j) s := by
  by_cases hji : j = i
  · rw [if_pos hji, hji, getVar_readInto_same, windowReg_digestOffset, readReg_digest_of_ready hq]
  · rw [if_neg hji]
    exact getVar_readInto_ne fun hvar => hji (digestVar_injective var hvar)

/-- `reaches_digest_reads` with the values read: the reads of the words in `is` leave d0 ... d7 with H[0] to H[7], when
the words not in `is` are read already. -/
theorem reaches_digest_vars (is : List (Fin 8)) (var : String) {s : State} (hr : s.resetIn = false)
    (hq : s.seq = .ready) (hh : s.host = is.map fun i => .read .w32 (digestOffset i) (digestVar var i))
    (hread : ∀ j, j ∉ is → getVar (digestVar var j) s = some s.H[j]) :
    ∃ t, t.host = [] ∧ t = beside t s ∧ (∀ j : Fin 8, getVar (digestVar var j) t = some s.H[j]) ∧
      Reaches s t 0 [] := by
  induction is generalizing s with
  | nil => exact ⟨s, hh, rfl, fun j => hread j List.not_mem_nil, .refl s⟩
  | cons i is ih =>
    set p : State := { s with host := is.map fun i => .read .w32 (digestOffset i) (digestVar var i) }
    have hstill : ∀ j, j ∉ is →
        getVar (digestVar var j) (readInto (digestOffset i) (digestVar var i) p) = some s.H[j] := by
      intro j hj
      rw [getVar_digest_read (s := p) hq]
      by_cases hji : j = i
      · rw [if_pos hji, hji]
      · rw [if_neg hji]; exact hread j (List.not_mem_cons_of_ne_of_not_mem hji hj)
    obtain ⟨t, ht, hframe, hvars, hreach⟩ :=
      ih (s := readInto (digestOffset i) (digestVar var i) p) hr hq rfl hstill
    exact ⟨t, ht, hframe, hvars, (reaches_read hr hq hh (digestOffset_aligned i)).trans hreach⟩

/-! ### The transaction -/

/-- A completed transaction shows PHASE = DONE in STATUS, and nothing else. -/
theorem Completed.statusWord {M : List Byte} {s : State} (h : Completed M s) : s.statusWord = 0x00000004#32 := by
  rw [statusWord_of_empty h.ready h.empty h.noError, h.phase]
  rfl

/-- LEN counts every bit of a message within the limit. -/
theorem Completed.length_toNat {M : List Byte} {s : State} (h : Completed M s) (hM : M.length ≤ 2 ^ 61 - 1) :
    s.L.toNat = 8 * M.length := by
  rw [h.length, BitVec.toNat_ofNat]
  omega

/-- Settles O38: `reaches_completed`, and then the digest reads, which take no engine step and find H. -/
theorem transactionComputesSha256 : Obligations.TransactionComputesSha256 := by
  intro M var s hM hq hr hh
  obtain ⟨u, hu, hhost, hreach⟩ := reaches_completed hM hq hr hh
  obtain ⟨t, ht, hframe, hvars, hreads⟩ := reaches_digest_vars (List.finRange 8) var hu.released hu.ready hhost
    fun j hj => absurd (List.mem_finRange j) hj
  have hdone : Completed M t := by rw [hframe]; exact hu.beside t
  obtain ⟨k, hrun, hsteps, -⟩ := hreach.trans hreads
  have hdigest : digestValue var t = some (sha256 M) := by
    rw [digestValue_of_vars hvars, hu.hash]
    rfl
  exact ⟨k, t, hrun, ht, busy_eq_false.mpr hdone.ready, hdone.phase, hdone.noError, hdone.statusWord,
    hdone.length_toNat hM, hdone.hash, hdigest, length_digestBytes (sha256Words M), hsteps⟩

end Sys2Proof.Machine
end

section
/-! PROOFS. Errors (60_exceptions.md): recording one and keeping the first (R195), the three causes (R193, R194, R196), how
phase ERROR is entered and left (R198), and that no message is an error (R191). -/

namespace Sys2Proof.Machine

/-! ### Recording an error -/

theorem raiseError_of_noError {s : State} (hp : s.phase ≠ .error) (c : ErrCode) :
    raiseError c s = { s with err := c, phase := .error } := by
  rw [raiseError_eq, if_neg hp]

theorem raiseError_of_error {s : State} (hp : s.phase = .error) (c : ErrCode) : raiseError c s = s := by
  rw [raiseError_eq, if_pos hp]

/-- Settles O12, the two cases of `raiseError`. -/
theorem firstErrorIsKept : Obligations.FirstErrorIsKept :=
  fun c _ => ⟨fun hp => raiseError_of_noError hp c, fun hp => raiseError_of_error hp c⟩

/-! ### The three causes -/

/-- Settles O11: the step is `commandWrite` of an illegal word at the state with the access taken off. -/
theorem illegalWordRecordsIllegalCmd : Obligations.IllegalWordRecordsIllegalCmd := by
  intro s v rest hr hh hq hl
  have hstep : step s = commandWrite v { s with host := rest } := step_host_ready hr hq hh
  have hraise : commandWrite v { s with host := rest } = .next (raiseError .illegalCmd { s with host := rest }) :=
    commandWrite_illegal hq hl
  rw [hstep, hraise, raiseError_eq]

/-- Settles O13: what ABSORB and FINISH answer outside phase ABSORB (`exec_sequence`). -/
theorem sequenceErrors : Obligations.SequenceErrors := by
  intro i s hi hq hp
  rw [exec_sequence hq hp hi, raiseError_eq]

/-- In phase ERROR, ABSORB and FINISH have no effect. -/
theorem exec_of_error {s : State} (hq : s.seq = .ready) (hp : s.phase = .error) {i : Instr} (hi : i ≠ .init) :
    exec i s = .next s := by
  rw [exec_sequence hq (by simp [hp]) hi, raiseError_of_error hp]

/-- Settles O14: ABSORB at the limit raises the error, and FINISH does nothing in phase ERROR (`exec_of_error`). -/
theorem lengthOverflowRejectsTheByte : Obligations.LengthOverflowRejectsTheByte := by
  intro b s hq hp hL
  have hready : (raiseError .lengthOverflow s).seq = .ready := (raiseError_seq _ s).trans hq
  exact ⟨raiseError .lengthOverflow s, exec_absorb_overflow hq hp (maxLength_toNat.mpr hL) b,
    raiseError_of_noError (by simp [hp]) _, exec_of_error hready (raiseError_phase _ s) (by decide)⟩

/-! ### Entering and leaving phase ERROR -/

/-- The engine's steps move the phase to DONE or not at all. -/
theorem engineStep_phase_or_done (s : State) : (engineStep s).phase = s.phase ∨ (engineStep s).phase = .done := by
  by_cases hq : s.seq = .fold
  · rw [engineStep_of_fold hq, foldStep_phase]
    split
    · exact .inr rfl
    · exact .inl rfl
  · exact .inl (engineStep_phase hq)

/-- A write to CMD enters phase ERROR by recording an error. -/
theorem commandWrite_raises {v : Word} {s t : State} (h : commandWrite v s = .next t) (hp : s.phase ≠ .error)
    (ht : t.phase = .error) : ∃ c, c ≠ .none ∧ t = raiseError c s := by
  obtain ⟨-, ⟨-, rfl⟩ | ⟨i, -, he⟩⟩ := commandWrite_next h
  · exact ⟨.illegalCmd, by decide, rfl⟩
  obtain ⟨-, ⟨-, rfl⟩ | ⟨-, -, rfl⟩ | ⟨b, -, -, -, rfl⟩ | ⟨b, -, -, -, rfl⟩ | ⟨-, -, rfl⟩⟩ := exec_next he
  · simp at ht
  · exact ⟨.sequence, by decide, rfl⟩
  · exact ⟨.lengthOverflow, by decide, rfl⟩
  · exact absurd (absorbByte_phase b s ▸ ht) hp
  · exact absurd (finishMessage_phase s ▸ ht) hp

/-- Of the host's actions, only a write to CMD enters phase ERROR. -/
theorem hostAction_raises {a : HostAction} {s t : State} (h : hostAction a s = .next t) (hp : s.phase ≠ .error)
    (ht : t.phase = .error) : s.seq = .ready ∧ (∃ v, a = .write .w32 0x00 v) ∧ ∃ c, c ≠ .none ∧ t = raiseError c s := by
  obtain ⟨off, x, -, -, rfl⟩ | ⟨off, v, -, -, -, rfl⟩ | ⟨v, rfl, hc⟩ | ⟨-, rfl⟩ | ⟨-, rfl⟩ := hostAction_next h
  · exact absurd ht hp
  · exact absurd ht hp
  · exact ⟨(commandWrite_next hc).1, ⟨v, rfl⟩, commandWrite_raises hc hp ht⟩
  · exact absurd (pollStatus_phase s ▸ ht) hp
  · exact absurd ht hp

/-- A step into phase ERROR is the host's write to CMD with BUSY = 0, which records an error. -/
theorem step_raises {s t : State} (h : step s = .next t) (hp : s.phase ≠ .error) (ht : t.phase = .error) :
    s.seq = .ready ∧ ∃ v as c, s.host = .write .w32 0x00 v :: as ∧ c ≠ .none ∧ t = raiseError c { s with host := as } := by
  obtain ⟨-, rfl⟩ | ⟨-, ⟨-, -, rfl⟩ | ⟨-, -, rfl⟩ | ⟨a, as, -, hh, ha⟩⟩ := step_next h
  · simp at ht
  · exact absurd ht hp
  · obtain hkept | hdone := engineStep_phase_or_done (takeTurn s)
    · exact absurd (by rw [← ht, hkept, takeTurn_phase]) hp
    · simp [ht] at hdone
  · obtain ⟨hq, ⟨v, rfl⟩, c, hc, he⟩ := hostAction_raises ha hp ht
    have hb : s.busy = false := busy_eq_false.mpr hq
    rw [if_neg (by simp [hb])] at he
    exact ⟨hq, v, as, c, hh, hc, he⟩

/-- Settles O15: the way in by `step_raises`, the way out by the effects of a step, of which the engine's, an accepted ABSORB
and an accepted FINISH need phase ABSORB. -/
theorem enteringAndLeavingError : Obligations.EnteringAndLeavingError := by
  refine ⟨fun s t hp h ht => ?_, fun s t hi hp h => ?_⟩
  · obtain ⟨hq, v, as, c, hh, hc, he⟩ := step_raises h hp ht
    rw [hh, he, raiseError_of_noError (s := { s with host := as }) hp]
    exact ⟨hq, ⟨v, rfl⟩, hc, rfl⟩
  · have hq : s.seq = .ready := hi.ready_of_not_absorb (by simp [hp])
    cases hr : s.resetIn with
    | true =>
      rw [step_reset hr] at h
      cases h
      exact .inl ⟨rfl, rfl, rfl⟩
    | false =>
      cases step_effect h with
      | reset hr' _ => simp [hr] at hr'
      | engine hm _ => exact absurd hq (busy_eq_true.mp (mover_engine.mp hm).1)
      | init as _ hh ht => exact .inr (.inr ⟨rfl, by rw [hh, encode_init]; rfl, by rw [ht]; rfl, by rw [ht]; rfl⟩)
      | absorb _ _ _ hp' _ _ _ => simp [hp] at hp'
      | finish _ _ hp' _ _ => simp [hp] at hp'
      | raised c as _ _ ht =>
        rw [ht, raiseError_of_error (s := { s with host := as }) hp]
        exact .inr (.inl ⟨rfl, hp, rfl, rfl, rfl, rfl, rfl⟩)
      | hostSide ht =>
        rw [ht]
        exact .inr (.inl ⟨rfl, hp, rfl, rfl, rfl, rfl, rfl⟩)

/-! ### No message is an error -/

/-- Settles O17: ABSORB below the limit is `absorbByte`, FINISH in a transaction is `finishMessage`, and neither they nor the
engine's steps write err. -/
theorem noMessageIsAnError : Obligations.NoMessageIsAnError := by
  refine ⟨fun b s hq hp hL => ?_, fun s hq hp => ?_, fun s hq => ?_, fun s hr hm => ?_⟩
  · exact ⟨_, exec_absorb hq hp (mt maxLength_toNat.mp hL) b, hp, rfl⟩
  · exact ⟨_, exec_finish hq hp, by rw [finishMessage_phase, hp], finishMessage_err s⟩
  · refine ⟨_, _, exec_init hq, exec_finish hq rfl, ?_, ?_⟩
    · rw [finishMessage_err, startTransaction_err]
    · rw [finishMessage_phase, startTransaction_phase]
  · refine ⟨_, step_engine hr hm, by rw [engineStep_err, takeTurn_err], ?_⟩
    rw [← takeTurn_phase s]
    exact engineStep_phase_or_done (takeTurn s)

/-! ### The idle machine -/

theorem engineMoves_of_ready {s : State} (hq : s.seq = .ready) : engineMoves s = false := by
  have hm : mover s ≠ some .engine := fun hm => busy_eq_true.mp (mover_engine.mp hm).1 hq
  simp [engineMoves, hm]

/-- Settles O50, by induction on the number of steps: each stays in the state and is not the engine's. -/
theorem idleMachineKeepsItsState : Obligations.IdleMachineKeepsItsState := by
  intro s k hr hq hh
  have hstep : step s = .next s := step_idle hr hq hh
  induction k with
  | zero => exact ⟨rfl, rfl⟩
  | succ k ih =>
    obtain ⟨hrun, hsteps⟩ := ih
    refine ⟨(run_succ_of_step hstep k).trans hrun, ?_⟩
    rw [engineSteps_succ, engineMoves_of_ready hq, hstep]
    simpa using hsteps

end Sys2Proof.Machine
end

section
/-! PROOFS. What stops the machine (70_reset_and_hazards.md R227): a write to CMD while BUSY = 1 faults, and with BUSY = 0 every
word the host may write is answered. -/

namespace Sys2Proof.Machine

/-! ### With BUSY = 0 every write to CMD is answered -/

theorem exec_of_ready {s : State} (hq : s.seq = .ready) (i : Instr) : ∃ t, exec i s = .next t := by
  by_cases hi : i = .init
  · exact ⟨_, hi ▸ exec_init hq⟩
  by_cases hp : s.phase = .absorb
  case neg => exact ⟨_, exec_sequence hq hp hi⟩
  cases i with
  | init => exact absurd rfl hi
  | absorb b =>
    by_cases hL : s.L = maxLength
    · exact ⟨_, exec_absorb_overflow hq hp hL b⟩
    · exact ⟨_, exec_absorb hq hp hL b⟩
  | finish => exact ⟨_, exec_finish hq hp⟩

theorem commandWrite_of_ready {s : State} (hq : s.seq = .ready) (v : Word) : ∃ t, commandWrite v s = .next t := by
  cases hl : legalWord v with
  | false => exact ⟨_, commandWrite_illegal hq hl⟩
  | true =>
    obtain ⟨i, hi⟩ := legalWord_iff.mp hl
    rw [commandWrite_legal hi]
    exact exec_of_ready hq i

/-! ### The fault -/

theorem commandWrite_fault {v : Word} {s : State} {r : Fault} : commandWrite v s = .fault r ↔ s.busy = true := by
  cases hb : s.busy with
  | true => simp [commandWrite_busy hb]
  | false =>
    obtain ⟨t, ht⟩ := commandWrite_of_ready (busy_eq_false.mp hb) v
    simp [ht]

/-- Only a 32-bit write at offset 0x00 reaches CMD. -/
theorem hostAction_fault {a : HostAction} {s : State} {r : Fault} :
    hostAction a s = .fault r ↔ s.busy = true ∧ ∃ v, a = .write .w32 0x00 v := by
  cases a with
  | read w off x => rw [hostAction, whenSupported]; split <;> simp
  | wait => simp [hostAction]
  | assertReset => simp [hostAction]
  | write w off v =>
    rw [hostAction, whenSupported]
    split
    case isFalse hs =>
      rw [supportedAccess_iff] at hs
      simp only [reduceCtorEq, HostAction.write.injEq, false_iff]
      rintro ⟨-, v', rfl, rfl, -⟩
      exact hs ⟨rfl, rfl⟩
    case isTrue hs =>
      obtain ⟨rfl, ho⟩ := supportedAccess_iff.mp hs
      by_cases hc : off = 0x00
      · subst hc
        rw [busWrite_cmd, commandWrite_fault]
        simp
      · rw [busWrite_other (mt (windowReg_cmd ho).mp hc)]
        simp [show off ≠ 0#6 from hc]

/-- A step faults exactly when it is the host's, its oldest pending action writes CMD, and BUSY = 1. -/
theorem step_fault {s : State} {r : Fault} : step s = .fault r ↔
    s.resetIn = false ∧ s.busy = true ∧ mover s = some .host ∧ ∃ v, s.host.head? = some (.write .w32 0x00 v) := by
  cases hr : s.resetIn with
  | true => simp [step_reset hr]
  | false =>
    match hm : mover s with
    | none =>
      obtain ⟨hb, hh⟩ := mover_none.mp hm
      simp [step_idle hr (busy_eq_false.mp hb) hh]
    | some .engine => simp [step_engine hr hm]
    | some .host =>
      obtain ⟨a, as, hh⟩ := List.exists_cons_of_ne_nil (mover_host.mp hm).1
      have hbusy (us : List Agent) : State.busy { s with host := as, turns := us } = s.busy := busy_congr rfl
      simp [step_host hr hm hh, hostAction_fault, hbusy, hh]

/-- No later step clears a fault. -/
theorem run_fault_add {k : Nat} {s : State} {r : Fault} (h : run k s = .fault r) (m : Nat) :
    run (k + m) s = .fault r := by
  induction k generalizing s with
  | zero => cases h
  | succ k ih =>
    rw [run_succ] at h
    rw [Nat.succ_add, run_succ]
    cases hs : step s with
    | next t => rw [hs] at h; exact ih h
    | fault r' => rfl -- the model has one fault
    | refused r' => rw [hs] at h; cases h

/-- Settles O18: the step by `step_fault`, the command by `exec_busy`, the run by `run_fault_add`. -/
theorem onlyACommandWhileBusyFaults : Obligations.OnlyACommandWhileBusyFaults :=
  ⟨fun _ _ => step_fault, fun i _ hb => exec_busy hb i, fun _ m _ _ h => run_fault_add h m⟩

end Sys2Proof.Machine
end

section
/-! PROOFS. The host's duties (70_reset_and_hazards.md R226, R231): a host that keeps them is answered at every step, and keeps
them on what it has still pending (`Dutiful`, `dutiful_step`); the expansion of HASH keeps them. -/

namespace Sys2Proof.Machine

/-! ### What a write to CMD leaves for the host to know -/

theorem mayStartCompression_encode (i : Instr) : mayStartCompression (encode i) = decide (i ≠ .init) := by
  rw [mayStartCompression, decode_encode]
  cases i <;> rfl

theorem commandWrite_host {v : Word} {s t : State} (h : commandWrite v s = .next t) : t.host = s.host := by
  obtain ⟨-, ⟨-, rfl⟩ | ⟨i, -, he⟩⟩ := commandWrite_next h
  · exact raiseError_host _ s
  obtain ⟨-, ⟨-, rfl⟩ | ⟨-, -, rfl⟩ | ⟨b, -, -, -, rfl⟩ | ⟨b, -, -, -, rfl⟩ | ⟨-, -, rfl⟩⟩ := exec_next he
  · exact startTransaction_host s
  · exact raiseError_host _ s
  · exact raiseError_host _ s
  · exact absorbByte_host b s
  · exact finishMessage_host s

/-- INIT and an illegal word start no compression (R226). -/
theorem commandWrite_stays_ready {v : Word} {s t : State} (h : commandWrite v s = .next t)
    (hv : mayStartCompression v = false) : t.seq = .ready := by
  obtain ⟨hq, ⟨-, rfl⟩ | ⟨i, rfl, he⟩⟩ := commandWrite_next h
  · rw [raiseError_seq, hq]
  · obtain rfl : i = .init := by simpa [mayStartCompression_encode] using hv
    rw [exec_init hq] at he
    cases he
    rw [startTransaction_seq, hq]

/-! ### The duties are kept -/

/-- Knowing that BUSY = 0 forbids the host nothing. -/
theorem keepsDuties_of_false {as : List HostAction} (h : keepsDuties false as = true) (idle : Bool) :
    keepsDuties idle as = true := by
  induction as with
  | nil => rfl
  | cons a as ih =>
    cases a with
    | read w off x =>
      rw [keepsDuties, Bool.and_eq_true] at h ⊢
      exact ⟨h.1, ih h.2⟩
    | write w off v =>
      rw [keepsDuties, Bool.and_eq_true] at h ⊢
      obtain ⟨hs, h⟩ := h
      by_cases hc : windowReg off = .cmd
      · simp [hc] at h
      · rw [if_neg hc] at h ⊢
        exact ⟨hs, ih h⟩
    | wait => exact h
    | assertReset => exact h

/-- The host keeps its duties on all it has pending, BUSY being 0 now, or from the next step on by a reset. -/
def Dutiful (s : State) : Prop := keepsDuties (!s.busy || s.resetIn) s.host = true

theorem dutiful_of_keepsDuties {s : State} {idle : Bool} (h : keepsDuties idle s.host = true)
    (hidle : idle = true → s.busy = false) : Dutiful s := by
  cases idle with
  | false => exact keepsDuties_of_false h _
  | true => rw [Dutiful, hidle rfl]; exact h

/-- A dutiful host's write to CMD is answered, and leaves it dutiful. -/
theorem dutiful_commandWrite {v : Word} {s : State} (hq : s.seq = .ready)
    (h : keepsDuties (!mayStartCompression v) s.host = true) : ∃ t, commandWrite v s = .next t ∧ Dutiful t := by
  obtain ⟨t, ht⟩ := commandWrite_of_ready hq v
  refine ⟨t, ht, dutiful_of_keepsDuties ((commandWrite_host ht).symm ▸ h) fun hv => ?_⟩
  exact busy_eq_false.mpr (commandWrite_stays_ready ht (by simpa using hv))

/-- A dutiful host's action is answered, and leaves it dutiful on the rest, `s` being the state with the action taken off. -/
theorem dutiful_hostAction {a : HostAction} {s : State} (h : keepsDuties (!s.busy) (a :: s.host) = true) :
    ∃ t, hostAction a s = .next t ∧ Dutiful t := by
  have hidle : (!s.busy) = true → s.busy = false := by simp
  cases a with
  | read w off x =>
    rw [keepsDuties, Bool.and_eq_true] at h
    obtain ⟨hs, hrest⟩ := h
    exact ⟨readInto off x s, by rw [hostAction, whenSupported, if_pos hs], dutiful_of_keepsDuties hrest hidle⟩
  | write w off v =>
    rw [keepsDuties, Bool.and_eq_true] at h
    obtain ⟨hs, hrest⟩ := h
    rw [hostAction, whenSupported, if_pos hs]
    by_cases hc : windowReg off = .cmd
    · rw [if_pos hc, Bool.and_eq_true] at hrest
      obtain ⟨hb, hrest⟩ := hrest
      rw [busWrite, hc]
      exact dutiful_commandWrite (busy_eq_false.mp (hidle hb)) hrest
    · rw [if_neg hc] at hrest
      exact ⟨s, busWrite_other hc v s, dutiful_of_keepsDuties hrest hidle⟩
  | wait =>
    have hwait : keepsDuties (!s.busy) (pollStatus s).host = true := by
      rw [pollStatus_host]
      cases hb : s.busy with
      | true => exact h
      | false => exact h
    exact ⟨pollStatus s, rfl, dutiful_of_keepsDuties hwait fun hb => (busy_congr (pollStatus_seq s)).trans (hidle hb)⟩
  | assertReset => exact ⟨{ s with resetIn := true }, rfl, by rw [Dutiful, Bool.or_true]; exact h⟩

/-- Every step of a dutiful host's machine is answered, and leaves it dutiful. -/
theorem dutiful_step {s : State} (h : Dutiful s) : ∃ t, step s = .next t ∧ Dutiful t := by
  unfold Dutiful at h
  cases hr : s.resetIn with
  | true =>
    rw [hr, Bool.or_true] at h
    exact ⟨hardwareReset s, step_reset hr, h⟩
  | false =>
    rw [hr, Bool.or_false] at h
    match hm : mover s with
    | none =>
      obtain ⟨hb, hh⟩ := mover_none.mp hm
      exact ⟨s, step_idle hr (busy_eq_false.mp hb) hh, by rw [Dutiful, hh]; rfl⟩
    | some .engine =>
      rw [(mover_engine.mp hm).1] at h
      refine ⟨_, step_engine hr hm, dutiful_of_keepsDuties (idle := false) ?_ (by simp)⟩
      rw [engineStep_host, takeTurn_host]
      exact h
    | some .host =>
      obtain ⟨a, as, hh⟩ := List.exists_cons_of_ne_nil (mover_host.mp hm).1
      rw [step_host hr hm hh]
      rw [hh] at h
      exact dutiful_hostAction (s := { s with host := as, turns := if s.busy then s.turns.tail else s.turns }) h

/-- What answers every step and is kept by it answers every run. -/
theorem safeFrom_of_step {P : State → Prop} (hstep : ∀ s, P s → ∃ t, step s = .next t ∧ P t) {s : State} (h : P s) :
    SafeFrom s := by
  intro k
  induction k generalizing s with
  | zero => exact ⟨s, rfl⟩
  | succ k ih =>
    obtain ⟨t, ht, hP⟩ := hstep s h
    rw [run_succ_of_step ht]
    exact ih hP

/-! ### HASH -/

/-- A command is written where BUSY is known to be 0, and leaves it so only if it is INIT. -/
theorem keepsDuties_command (idle : Bool) (i : Instr) (as : List HostAction) :
    keepsDuties idle (command i :: as) = (idle && keepsDuties (decide (i = .init)) as) := by
  have hcmd : windowReg cmdOffset = .cmd := rfl
  rw [command, keepsDuties, mayStartCompression_encode, if_pos hcmd, decide_not, Bool.not_not]
  rfl

/-- Each ABSORB of a list is followed by its WAIT. -/
theorem keepsDuties_absorbs (bs : List Byte) (as : List HostAction) :
    keepsDuties true (absorbsExpansion bs ++ as) = keepsDuties true as := by
  induction bs with
  | nil => rfl
  | cons b bs ih =>
    rw [← ih]
    exact keepsDuties_command true (.absorb b) _

theorem keepsDuties_digest_reads (idle : Bool) (is : List (Fin 8)) (var : String) :
    keepsDuties idle (is.map fun i => .read .w32 (digestOffset i) (digestVar var i)) = true := by
  induction is with
  | nil => rfl
  | cons i is ih =>
    rw [List.map_cons, keepsDuties, ih, supportedAccess_iff.mpr ⟨rfl, digestOffset_aligned i⟩]
    rfl

theorem keepsDuties_hash (M : List Byte) (var : String) (idle : Bool) :
    keepsDuties idle (AsmOp.hash M var).expand = true := by
  simp only [AsmOp.expand, List.append_assoc, List.cons_append, List.nil_append]
  rw [keepsDuties, keepsDuties_command, decide_eq_true rfl, keepsDuties_absorbs, keepsDuties_command, keepsDuties]
  exact keepsDuties_digest_reads true _ var

/-- Settles O49: `Dutiful` is kept by every step, and HASH meets it. -/
theorem dutifulHostIsSafe : Obligations.DutifulHostIsSafe :=
  ⟨fun _ => safeFrom_of_step (fun _ => dutiful_step), keepsDuties_hash⟩

end Sys2Proof.Machine
end

section
/-! PROOFS. Transactions, the busy engine and reset (70_reset_and_hazards.md R220 to R224, R234). -/

namespace Sys2Proof.Machine

/-! ### Every transaction starts with INIT -/

/-- Recording an error leaves phase ERROR and writes no more than err (R195). -/
theorem raiseError_frame (c : ErrCode) (s : State) :
    raiseError c s = { s with err := (raiseError c s).err, phase := .error } := by
  by_cases hp : s.phase = .error
  · rw [raiseError_of_error hp, ← hp]
  · rw [raiseError_of_noError hp]

/-- A step into phase ABSORB is INIT's. -/
theorem step_opens {s t : State} (hp : s.phase ≠ .absorb) (h : step s = .next t) (ht : t.phase = .absorb) :
    s.resetIn = false ∧ s.seq = .ready ∧
      ∃ as, s.host = .write .w32 0x00 (encode .init) :: as ∧ t = startTransaction { s with host := as } := by
  have hr : s.resetIn = false := by
    by_contra hr
    rw [step_reset (by simpa using hr)] at h
    cases h
    cases ht
  refine ⟨hr, ?_⟩
  cases step_effect h with
  | reset hr' _ => simp [hr] at hr'
  | engine _ he =>
    obtain hkept | hdone := engineStep_phase_or_done (takeTurn s)
    · exact absurd (by rw [← ht, he, hkept, takeTurn_phase]) hp
    · simp [← he, ht] at hdone
  | init as hq hh he => exact ⟨hq, as, hh, he⟩
  | absorb _ _ _ hp' _ _ _ => exact absurd hp' hp
  | finish _ _ hp' _ _ => exact absurd hp' hp
  | raised _ _ _ _ he => simp [he] at ht
  | hostSide he => exact absurd (by rw [he] at ht; exact ht) hp

/-- Settles O16: INIT's writes do not depend on the state, the other commands raise SEQUENCE, and `step_opens`. -/
theorem transactionsStartAfresh : Obligations.TransactionsStartAfresh := by
  refine ⟨fun s s' hq hq' => ?_, fun i s hq hp hi => ?_, fun s t hp h ht => ?_⟩
  · exact ⟨_, _, exec_init hq, exec_init hq', rfl, rfl, rfl, rfl, rfl, rfl, rfl, rfl⟩
  · have hna : s.phase ≠ .absorb := by rcases hp with hp | hp <;> simp [hp]
    exact ⟨_, exec_sequence hq hna hi, raiseError_frame _ s, fun he => raiseError_of_error he _⟩
  · obtain ⟨hr, hq, as, hh, he⟩ := step_opens hp h ht
    exact ⟨hr, hq, by rw [hh, encode_init]; rfl, by rw [he, startTransaction_H], by rw [he, startTransaction_L]⟩

/-! ### The busy engine -/

/-- While BUSY = 1, STATUS does not show n. -/
theorem statusWord_congr_of_busy {s t : State} (hs : s.busy = true) (ht : t.busy = true) (hp : s.phase = t.phase)
    (he : s.err = t.err) (hd : s.draws = t.draws) : s.statusWord = t.statusWord := by
  rw [State.statusWord, State.statusWord, bufCountField_of_busy (busy_eq_true.mp hs),
    bufCountField_of_busy (busy_eq_true.mp ht), hs, ht, hp, he, hd]

/-- An engine step writes the phase only where it makes the engine ready. -/
theorem engineStep_phase_of_busy {s : State} (hb : (engineStep s).busy = true) : (engineStep s).phase = s.phase := by
  by_cases hq : s.seq = .fold
  case neg => exact engineStep_phase hq
  rw [busy_eq_true, engineStep_of_fold hq, foldStep_seq] at hb
  rw [engineStep_of_fold hq, foldStep_phase]
  cases hl : s.lenblk with
  | true => simp
  | false => simp [hl] at hb

/-- Settles O33: no engine step writes err, L or the draw counter, the phase by `engineStep_phase_of_busy`, and STATUS shows
nothing else. -/
theorem nothingShowsWhileBusy : Obligations.NothingShowsWhileBusy := by
  intro s hb hb'
  have hp := engineStep_phase_of_busy hb'
  exact ⟨hp, engineStep_err s, engineStep_L s, engineStep_draws s,
    statusWord_congr_of_busy hb' hb hp (engineStep_err s) (engineStep_draws s)⟩

/-! ### Reset -/

/-- The idle state that R221 names shows STATUS = 0. -/
theorem statusWord_of_idle {s : State} (hq : s.seq = .ready) (hp : s.phase = .idle) (hn : s.n = 0) (he : s.err = .none) :
    s.statusWord = 0x00000000#32 := by
  rw [statusWord_of_empty hq hn he, hp]
  rfl

/-- Settles O51: the step is `hardwareReset`; the host's action that asserts the input is one `step_host`. -/
theorem resetTakesPrecedence : Obligations.ResetTakesPrecedence := by
  refine ⟨fun s hr => ?_, fun s rest hr hh hm => step_host hr hm hh⟩
  have hstatus : (hardwareReset s).statusWord = 0x00000000#32 := statusWord_of_idle rfl rfl rfl rfl
  exact ⟨hardwareReset s, step_reset hr, rfl, rfl, rfl, rfl, rfl, rfl, rfl, rfl, hstatus, rfl, rfl⟩

theorem hardwareReset_H (s : State) (i : Fin 8) : (hardwareReset s).H[i] = Config.freeWord (s.draws + i.val) :=
  Vector.getElem_ofFn i.isLt

/-- ABSORB and FINISH raise SEQUENCE where no transaction is open and no error is recorded (R196). -/
theorem exec_sequence_of_noError {s : State} (hq : s.seq = .ready) (hp : s.phase ≠ .absorb) (he : s.phase ≠ .error)
    {i : Instr} (hi : i ≠ .init) : exec i s = .next { s with err := .sequence, phase := .error } := by
  rw [exec_sequence hq hp hi, raiseError_of_noError he]

/-- Settles O52: H is drawn anew (`hardwareReset_H`), and phase IDLE opens no transaction but by INIT. -/
theorem resetLoadsNoHashState : Obligations.ResetLoadsNoHashState := by
  intro s t hr h
  rw [step_reset hr] at h
  cases h
  have hq : (hardwareReset s).seq = .ready := hardwareReset_seq s
  have hraise {i : Instr} := exec_sequence_of_noError (i := i) hq (by simp) (by simp)
  exact ⟨fun i => (readReg_digest_of_ready hq i).trans (hardwareReset_H s i), fun b => hraise (by simp), hraise (by simp),
    startTransaction (hardwareReset s), exec_init hq, startTransaction_H _⟩

/-- Settles O53: the fields of the reset state, STATUS by `statusWord_of_idle`, and the step by `step_idle`. -/
theorem stateAfterReset : Obligations.StateAfterReset :=
  ⟨rfl, rfl, statusWord_of_idle rfl rfl rfl rfl, rfl, rfl, rfl, step_idle rfl rfl rfl⟩

end Sys2Proof.Machine
end

section
/-! PROOFS. Words written out from the table of R72, and words outside it, which the opcode table gives no command. -/

namespace Sys2Proof

/-- The opcode table gives a word no command exactly where the word is in no row of R72. -/
theorem decodeTableWord_eq_none_iff {nbits w : Nat} :
    decodeTableWord nbits w = none ↔ legalWord (tableWord nbits w) = false := by
  rw [Bool.eq_false_iff, ne_eq, legalWord_iff, decodeTableWord]
  cases decode (tableWord nbits w) with
  | ok i => simp
  | error e => simp

/-- Settles O3: each legal word is the `encode` of its command (`decode_eq_ok`), and each of the others is in no row of
R72. -/
theorem decodesWordsOfTheSpec : Obligations.DecodesWordsOfTheSpec := by
  have hlegal {w : Word} {i : Instr} (h : w = encode i) : decode w = .ok i := decode_eq_ok.mpr h
  have hillegal {w : Nat} (h : legalWord (tableWord 32 w) = false) : decodeTableWord 32 w = none :=
    decodeTableWord_eq_none_iff.mpr h
  exact ⟨hlegal rfl, hlegal rfl, hlegal rfl, hlegal rfl, hlegal rfl, decodeTableWord_encode (.absorb 0x80),
    hillegal rfl, hillegal rfl, hillegal rfl, hillegal rfl, hillegal rfl, hillegal rfl⟩

end Sys2Proof
end
